-- ==== Sys2Proof/Word.lean ====
section
/-! DEFINITION. The words of the block: samples, header and operand words, packets, bytes (00_scope.md R8, R10;
30_encoding.md R47). -/

namespace Sys2Proof

/-- A byte of a serialised packet or response (20_memory.md R39). -/
abbrev Byte := BitVec 8

/-- The 32-bit header `H` of a command packet (R47). -/
abbrev Header := BitVec 32

/-- A 64-bit operand or data word (R47, R52). -/
abbrev Word64 := BitVec 64

/-- An IEEE 754 binary64 number, held as its bit pattern: sign in bit 63, exponent in bits 62:52, fraction in
bits 51:0 (R10). Every pattern is a legal sample (R50), so the pattern is the value. -/
abbrev F64 := BitVec 64

/-- The unsigned 20-bit immediate of a header (R48, R51). -/
abbrev Imm := BitVec 20

/-- A command packet `P[159:0] = H ‖ OPA ‖ OPB` (R47). -/
abbrev Packet := BitVec 160

end Sys2Proof
end

