-- ==== Sys2Proof/Config.lean ====
section
/-! DEFINITION. The parameters of the block (00_scope.md R5): the fixed and decided constants, the configuration record
of the open parameters (kernel and window as tables), and the free values, which have no body. -/

namespace Sys2Proof.Config

/-- `MAX_BLOCK` (R5). -/
def maxBlock : Nat := 8192

/-- `NCHAN` (R5): fixed at two channel pairs. -/
def nchan : Nat := 2

/-- `MAX_NFRAMES` (R5): the largest `nFrames` a `DRAIN` can carry. -/
def maxNFrames : Nat := 1048575

/-- `GAIN_DIV` (R5, R109): the binary64 pattern of `1000000.0`. -/
def gainDiv : F64 := 0x412E848000000000

/-- `DEFAULT_GAIN_PERCENT` (R5): the binary64 pattern of `10.0`. -/
def defaultGainPercent : F64 := 0x4024000000000000

/-- The reset value of `gain` (R15, R136). -/
def resetGain : F64 := 0x3EE4F8B588E368F1

/-- One listed call of a transform: its length, its input and its result. -/
structure TransformEntry where
  length : Nat
  input : List F64
  output : List F64
deriving DecidableEq, Repr

/-- A Transform Kernel as plain data: the listed calls of `FwdT` and of `InvT` (R86). Calls that are not listed stay
open (log 5). -/
structure KernelTable where
  fwd : List TransformEntry
  inv : List TransformEntry
deriving DecidableEq, Repr

/-- One row of a window table (R93): the values for one transform length, from index 0 on. -/
structure WindowRow where
  length : Nat
  values : List F64
deriving DecidableEq, Repr

/-- The configuration record (R5): `DEFAULT_BLOCK_LENGTH = 2 ^ (defaultExp + 1)`, `INQ_CAP` and `OUTQ_CAP`, where
`none` is "unbounded", the kernel and the window, where what is not listed stays open. `State.cfg` carries it, so a
claim about `exec` or `step` fixes a parameter or quantifies over it (DESIGN CHOICE, safe: logs 2, 5, 6). -/
structure Params where
  defaultExp : Fin 13
  inqCap : Option Nat
  outqCap : Option Nat
  kernelTable : KernelTable
  winTable : List WindowRow
deriving DecidableEq, Repr

/-- The bounds R5 puts on the capacities: `INQ_CAP >= MAX_BLOCK + 1`, `OUTQ_CAP >= MAX_BLOCK`. -/
abbrev Params.Legal (p : Params) : Prop :=
  (∀ k ∈ p.inqCap, maxBlock + 1 ≤ k) ∧ (∀ k ∈ p.outqCap, maxBlock ≤ k)

/-- The parameters of `State.reset`: smallest default length and unbounded queues (DESIGN CHOICE, unsafe: logs 3
and 4); of kernel and window nothing is fixed (logs 5 and 6). -/
def Params.default : Params := ⟨0, none, none, ⟨[], []⟩, []⟩

/-- The floating-point operations of the machine (R95). -/
inductive FpOp
  | add | mul | div
deriving DecidableEq, Repr

/-- Slot `i` of `Kernel.FwdT(N, x)` (R86) where the configuration does not list it: open, no body (log 5). -/
opaque fwdSlot : Nat → List F64 → Nat → F64

/-- Slot `i` of `Kernel.InvT(N, x)` (R86) where the configuration does not list it: open, no body (log 5). -/
opaque invSlot : Nat → List F64 → Nat → F64

/-- `Win(N, i)` (R93) where the configuration does not list it: open, no body (log 6). -/
opaque winValue : Nat → Nat → F64

/-- Which NaN an operation produces from its operands (R95, U5): a free value, no body; only its sign and fraction
bits are used (log 7). -/
opaque nanChoice : FpOp → F64 → F64 → BitVec 64

/-- What a 64-bit CSR reads for a number of `2^64` or more, which no rule states: a free value, no body (log 9). -/
opaque wideNumber : Nat → Word64

/-- The Transform Kernel (R86), given slot by slot, so that a result has length `N` and depends on `N` and the
input alone (R91, `K_LEN` and `K_PURE`). -/
structure Kernel where
  fwd : Nat → List F64 → Nat → F64
  inv : Nat → List F64 → Nat → F64

/-- A window table `(N, i) -> F64` (R93). -/
abbrev Window := Nat → Nat → F64

/-- `FwdT(N, x)` (R86). -/
def Kernel.fwdT (K : Kernel) (N : Nat) (x : List F64) : List F64 := (List.range N).map (K.fwd N x)

/-- `InvT(N, x)` (R86). -/
def Kernel.invT (K : Kernel) (N : Nat) (x : List F64) : List F64 := (List.range N).map (K.inv N x)

end Sys2Proof.Config
end

