-- ==== Sys2Proof/Syntax.lean ====
section
/-! DEFINITION. The commands: one constructor per row of spec/opcode_table.json (30_encoding.md R49), and the
names of the control and status registers (10_state.md R27). -/

namespace Sys2Proof

/-- A channel number (R13): `Chan = {0, 1}`. -/
inductive Chan
  | c0 | c1
deriving DecidableEq, Repr

/-- A command with the operands R49 gives it. Operand words a command ignores (R47) are no part of it. -/
inductive Instr
  /-- `PUSH c, a, b` (R64). -/
  | push (c : Chan) (a b : F64)
  /-- `PROC c` (R65). -/
  | proc (c : Chan)
  /-- `DRAIN c, n` (R67). -/
  | drain (c : Chan) (n : Imm)
  /-- `SETBLK len` (R100). -/
  | setblk (len : Imm)
  /-- `SETEXP e` (R101). -/
  | setexp (e : Imm)
  /-- `SETGAIN p` (R109). -/
  | setgain (p : F64)
  /-- `RESET` (R102). -/
  | reset
  /-- `RDCSR csr, c` (R113); `c` is `c0` for an engine register. -/
  | rdcsr (c : Chan) (csr : Imm)
deriving DecidableEq, Repr

/-- The control and status registers by name (R27). -/
inductive Csr
  | blklen | gain | fault | nchan | maxblk | inqcap | outqcap
  | latency | inlvla | inlvlb | outlvl | ovllen
deriving DecidableEq, Repr

end Sys2Proof
end

