-- ==== Sys2Proof/WellFormed.lean ====
section
/-! DEFINITION. Which terms of `Instr` a packet can spell (30_encoding.md R55 d): every term but an `RDCSR` of an
unlisted number, or of an engine register with a channel other than 0. -/

namespace Sys2Proof

/-- `imm` is the number of an engine register, `0x00` to `0x06` (R27). -/
def isEngineCsr (imm : Imm) : Bool := decide (imm.toNat ≤ 0x06)

/-- `imm` is the number of a channel register, `0x10` to `0x14` (R27). -/
def isChannelCsr (imm : Imm) : Bool := decide (0x10 ≤ imm.toNat) && decide (imm.toNat ≤ 0x14)

/-- `CsrLegal(imm, ch)` (R55 d), for a channel field that is 0 or 1. -/
def csrLegal (imm : Imm) (c : Chan) : Bool := (isEngineCsr imm && decide (c = .c0)) || isChannelCsr imm

/-- The check of `WellFormed`, one arm per command. -/
def Instr.wellFormed : Instr → Bool
  | .push _ _ _ => true
  | .proc _ => true
  | .drain _ _ => true
  | .setblk _ => true
  | .setexp _ => true
  | .setgain _ => true
  | .reset => true
  | .rdcsr c csr => csrLegal csr c

/-- A command some packet spells. -/
abbrev WellFormed (i : Instr) : Prop := i.wellFormed = true

end Sys2Proof
end

