-- ==== Sys2Proof/Decode.lean ====
section
/-! DEFINITION. Decoding and encoding of command packets (30_encoding.md R47 to R58), and the packet an
opcode-table word stands for. -/

namespace Sys2Proof

/-! ### Fields of a packet (R47, R48) -/

/-- `H = P[159:128]`. -/
def Packet.header (p : Packet) : Header := p.extractLsb' 128 32

/-- `OPA = P[127:64]`. -/
def Packet.opa (p : Packet) : Word64 := p.extractLsb' 64 64

/-- `OPB = P[63:0]`. -/
def Packet.opb (p : Packet) : Word64 := p.extractLsb' 0 64

/-- `H ‖ OPA ‖ OPB`. -/
def mkPacket (h : Header) (opa opb : Word64) : Packet := h ++ opa ++ opb

/-- `op = H[31:24]`. -/
def Header.op (h : Header) : BitVec 8 := h.extractLsb' 24 8

/-- `ch = H[23:20]`. -/
def Header.ch (h : Header) : BitVec 4 := h.extractLsb' 20 4

/-- `imm = H[19:0]`. -/
def Header.imm (h : Header) : Imm := h.extractLsb' 0 20

/-- A header from its three fields (R48). -/
def mkHeader (op : BitVec 8) (ch : BitVec 4) (imm : Imm) : Header := op ++ ch ++ imm

/-- The channel of a header whose row leaves only bit 20 open: `c = H[20]` (R64). -/
def Header.chan (h : Header) : Chan := if h.getLsbD 20 then .c1 else .c0

/-- The channel field that spells a channel. -/
def Chan.field : Chan → BitVec 4
  | .c0 => 0
  | .c1 => 1

/-! ### The opcode map (R49) -/

/-- The rows of the opcode map. -/
inductive Opcode
  | push | proc | drain | setblk | setexp | setgain | reset | rdcsr
deriving DecidableEq, Repr

/-- One row of R49: a header `H` spells the command when `H & mask = pat`. -/
structure OpRow where
  op : Opcode
  mask : Header
  pat : Header
deriving DecidableEq, Repr

/-- The opcode map, R49, row by row. -/
def opRows : List OpRow :=
  [ ⟨.push,    0xFFEFFFFF, 0x01000000⟩,
    ⟨.proc,    0xFFEFFFFF, 0x02000000⟩,
    ⟨.drain,   0xFFE00000, 0x03000000⟩,
    ⟨.setblk,  0xFFF00000, 0x10000000⟩,
    ⟨.setexp,  0xFFF00000, 0x11000000⟩,
    ⟨.setgain, 0xFFFFFFFF, 0x12000000⟩,
    ⟨.reset,   0xFFFFFFFF, 0x13000000⟩,
    ⟨.rdcsr,   0xFFE00000, 0x20000000⟩ ]

/-- `H & mask = pat`. -/
def OpRow.matches (r : OpRow) (h : Header) : Bool := h &&& r.mask == r.pat

/-- Step 1 of R54: the row a header matches, if there is one. -/
def matchRow (h : Header) : Option Opcode := (opRows.find? (·.matches h)).map (·.op)

/-- The register a CSR number names (R27), if it names one. -/
def csrOfNumber (n : Nat) : Option Csr :=
  match n with
  | 0x00 => some .blklen
  | 0x01 => some .gain
  | 0x02 => some .fault
  | 0x03 => some .nchan
  | 0x04 => some .maxblk
  | 0x05 => some .inqcap
  | 0x06 => some .outqcap
  | 0x10 => some .latency
  | 0x11 => some .inlvla
  | 0x12 => some .inlvlb
  | 0x13 => some .outlvl
  | 0x14 => some .ovllen
  | _ => none

/-- The register an immediate names (R51). -/
def csrOfImm (imm : Imm) : Option Csr := csrOfNumber imm.toNat

/-- The scope column of R27: a register of the engine, not of a channel. -/
def Csr.isEngine : Csr → Bool
  | .blklen | .gain | .fault | .nchan | .maxblk | .inqcap | .outqcap => true
  | .latency | .inlvla | .inlvlb | .outlvl | .ovllen => false

/-- The register an `RDCSR` with this number and channel reads; `none` is "not `CsrLegal`" (R55 d). -/
def csrSelect (c : Chan) (imm : Imm) : Option Csr :=
  match csrOfImm imm with
  | some r => if r.isEngine && decide (c ≠ .c0) then none else some r
  | none => none

/-! ### Decoding (R54, R55) -/

/-- Why a packet spells no command: the cases (a) to (d) of R55. The block answers `ST_ILLEGAL` to all four
(R122); which of them it was is recorded nowhere (log 11). -/
inductive Illegal
  /-- R55 (a): `op` is no opcode. -/
  | opcode
  /-- R55 (b): a channel field the command does not allow. -/
  | channel
  /-- R55 (c): a non-zero immediate where the command uses none. -/
  | immediate
  /-- R55 (d): no such register, or an engine register with a channel other than 0. -/
  | csr
deriving DecidableEq, Repr

/-- The opcodes R55 (a) lists. -/
def knownOps : List (BitVec 8) := [0x01, 0x02, 0x03, 0x10, 0x11, 0x12, 0x13, 0x20]

/-- The opcodes whose channel field is a channel, the others being engine-wide (R55 b). -/
def channelOps : List (BitVec 8) := [0x01, 0x02, 0x03, 0x20]

/-- R55 (b). -/
def badChannel (h : Header) : Bool :=
  if channelOps.contains h.op then decide (2 ≤ h.ch.toNat) else decide (h.ch ≠ 0)

/-- The case of R55 that a header matching no row falls under. -/
def illegalReason (h : Header) : Illegal :=
  if knownOps.contains h.op then (if badChannel h then .channel else .immediate) else .opcode

/-- The command a row and the packet's fields spell (R49 to R51); `RDCSR` has the extra test of R54, step 2. -/
def commandOf (row : Opcode) (p : Packet) : Except Illegal Instr :=
  let h := p.header
  match row with
  | .push => .ok (.push h.chan p.opa p.opb)
  | .proc => .ok (.proc h.chan)
  | .drain => .ok (.drain h.chan h.imm)
  | .setblk => .ok (.setblk h.imm)
  | .setexp => .ok (.setexp h.imm)
  | .setgain => .ok (.setgain p.opa)
  | .reset => .ok .reset
  | .rdcsr => if (csrSelect h.chan h.imm).isSome then .ok (.rdcsr h.chan h.imm) else .error .csr

/-- Steps 1 and 2 of R54: total on all `2^160` packets. -/
def decode (p : Packet) : Except Illegal Instr :=
  match matchRow p.header with
  | some row => commandOf row p
  | none => .error (illegalReason p.header)

/-! ### Encoding (R49, R60): unused operand words are 0 -/

/-- The header of a command. -/
def Instr.header : Instr → Header
  | .push c _ _ => mkHeader 0x01 c.field 0
  | .proc c => mkHeader 0x02 c.field 0
  | .drain c n => mkHeader 0x03 c.field n
  | .setblk len => mkHeader 0x10 0 len
  | .setexp e => mkHeader 0x11 0 e
  | .setgain _ => mkHeader 0x12 0 0
  | .reset => mkHeader 0x13 0 0
  | .rdcsr c csr => mkHeader 0x20 c.field csr

/-- The first operand word of a command. -/
def Instr.opa : Instr → Word64
  | .push _ a _ => a
  | .setgain p => p
  | .proc _ | .drain _ _ | .setblk _ | .setexp _ | .reset | .rdcsr _ _ => 0

/-- The second operand word of a command. -/
def Instr.opb : Instr → Word64
  | .push _ _ b => b
  | .proc _ | .drain _ _ | .setblk _ | .setexp _ | .setgain _ | .reset | .rdcsr _ _ => 0

/-- The packet of a command. -/
def encode (i : Instr) : Packet := mkPacket i.header i.opa i.opb

/-! ### Bytes (R39, R58) -/

/-- The `n` bytes of a word, least significant first. -/
def bytesOf {w : Nat} (x : BitVec w) (n : Nat) : List Byte := (List.range n).map fun k => x.extractLsb' (8 * k) 8

/-- The number a list of bytes spells, least significant first. -/
def natOfBytes : List Byte → Nat
  | [] => 0
  | b :: bs => b.toNat + 256 * natOfBytes bs

/-- The 20 bytes of a packet: byte 0 is `OPB[7:0]`, byte 19 the opcode. -/
def Packet.toBytes (p : Packet) : List Byte := bytesOf p 20

/-- The packet at the front of a byte stream and the rest of the stream; `none` if fewer than 20 bytes are there. -/
def Packet.ofBytes (bs : List Byte) : Option (Packet × List Byte) :=
  if 20 ≤ bs.length then some (BitVec.ofNat 160 (natOfBytes (bs.take 20)), bs.drop 20) else none

/-- Why a byte stream gives no command: it is torn (outside the block's own interface, U20) or illegal. -/
inductive Reject
  | torn
  | illegal (why : Illegal)
deriving DecidableEq, Repr

/-- The command at the front of a byte stream, and the rest of the stream. -/
def decodeBytes (bs : List Byte) : Except Reject (Instr × List Byte) :=
  match Packet.ofBytes bs with
  | none => .error .torn
  | some (p, rest) =>
    match decode p with
    | .ok i => .ok (i, rest)
    | .error why => .error (.illegal why)

/-! ### Words of the opcode table -/

/-- The packet whose first `nbits` bits are those of `w`, numbered as the opcode table numbers them: bits 31:0 are
`H`, then `OPA` in bits 95:32 and `OPB` in bits 159:96; every other bit is 0 (log 13). -/
def packetOfTableWord (nbits w : Nat) : Packet :=
  let v := w % 2 ^ nbits
  mkPacket (BitVec.ofNat 32 v) (BitVec.ofNat 64 (v / 2 ^ 32)) (BitVec.ofNat 64 (v / 2 ^ 96))

/-- What the decoder reads from an instruction whose bits the opcode table numbers as `w`: the packet's 20 bytes
are laid out as R58 says and given to `decodeBytes`. -/
def decodeTableWord (nbits w : Nat) : Option Instr :=
  match decodeBytes (packetOfTableWord nbits w).toBytes with
  | .ok (i, _) => some i
  | .error _ => none

end Sys2Proof
end

