-- ==== Sys2Proof/Machine/State.lean ====
section
/-! DEFINITION. The state of the machine (10_state.md R13 to R20), its ports (20_memory.md R38), the reset state
(70_reset_and_hazards.md R136), and the reasons a step can stop. -/

namespace Sys2Proof.Machine

/-- The fault causes (60_exceptions.md R121), codes 1 to 4. -/
inductive Cause
  | invQueue | invOverlap | ovfInput | ovfOutput
deriving DecidableEq, Repr

/-- The status codes (30_encoding.md R53), codes 0 to 3. -/
inductive Status
  | ok | cfgErr | illegal | fault
deriving DecidableEq, Repr

/-- A response: a status and its data words (R52). -/
structure Response where
  status : Status
  data : List Word64
deriving DecidableEq, Repr

/-- `EngineState` (R13). `blkExp + 1` is the exponent of `blockLength`, so that no illegal length can be held
(R14). -/
structure EngineState where
  blkExp : Fin 13
  gain : F64
  fault : Option (Cause × Chan)
deriving DecidableEq, Repr

/-- `ChannelState` (R13). -/
structure ChannelState where
  inA : List F64
  inB : List F64
  ovl : List F64
  outQ : List F64
  lat : Nat
deriving DecidableEq, Repr

/-- The whole state of the block (R13): one `EngineState` and two `ChannelState` records. -/
structure BlockState where
  eng : EngineState
  ch0 : ChannelState
  ch1 : ChannelState
deriving DecidableEq, Repr

/-- What the host can present: a whole packet on the command port, or the reset input (R38, R135). -/
inductive HostInput
  | packet (p : Packet)
  | hardwareReset
deriving DecidableEq, Repr

/-- The block with its open parameters and its two ports. `block` is the spec's own `State` (R13); `cfg` holds the
constants of R5 (log 2); `input` is what the host has presented and the block has not taken, oldest first, and
`responses` is what the block has answered, oldest first (R38, R44; log 1). -/
structure State where
  block : BlockState
  cfg : Config.Params
  input : List HostInput
  responses : List Response
deriving DecidableEq, Repr

/-- Nothing stops this machine: every command, the faulting and the illegal ones too, is answered and has a next
state (R7, R54), so there is no reason to stop with a fault. The block's own faults (R121) are the contents of
`EngineState.fault`. -/
inductive Fault
deriving DecidableEq, Repr

/-- Why `exec` may have no meaning for a command. -/
inductive Refusal
  /-- Raised by an arm of `exec` that has no meaning yet; safe. No arm of this model raises it. -/
  | notModelled (mnemonic : String)
deriving DecidableEq, Repr

/-- A channel after hardware reset, for a block length (R136). -/
def ChannelState.init (len : Nat) : ChannelState :=
  { inA := [], inB := [], ovl := List.replicate len 0, outQ := [], lat := 0 }

/-- `Init(cfg)` (R136). -/
def BlockState.init (p : Config.Params) : BlockState :=
  { eng := { blkExp := p.defaultExp, gain := Config.resetGain, fault := none }
    ch0 := ChannelState.init (2 ^ (p.defaultExp.val + 1))
    ch1 := ChannelState.init (2 ^ (p.defaultExp.val + 1)) }

/-- The block right after hardware reset, nothing presented and nothing answered. -/
def State.init (p : Config.Params) : State :=
  { block := BlockState.init p, cfg := p, input := [], responses := [] }

/-- The machine right after reset, at the parameters a log entry names (logs 3 and 4). -/
def State.reset : State := State.init Config.Params.default

end Sys2Proof.Machine
end

