-- ==== Sys2Proof/Machine/Flags.lean ====
section
/-! DEFINITION. There are no condition codes or status flags (10_state.md R26); what stands for them is the status of a
response and the `fault` register. Their codes and bit layouts: 30_encoding.md R52, R53; 60_exceptions.md R121;
10_state.md R30. -/

namespace Sys2Proof.Machine

/-- The status codes of R53. -/
def Status.code : Status → BitVec 8
  | .ok => 0x00
  | .cfgErr => 0x01
  | .illegal => 0x02
  | .fault => 0x03

/-- The cause codes of R121. -/
def Cause.code : Cause → BitVec 8
  | .invQueue => 1
  | .invOverlap => 2
  | .ovfInput => 3
  | .ovfOutput => 4

/-- The channel number in `FAULT[11:8]` (R30). -/
def chanNumber : Chan → BitVec 4
  | .c0 => 0
  | .c1 => 1

/-- The value of the `FAULT` register (R30): cause in bits 7:0, channel in bits 11:8, bits 63:12 zero. -/
def faultWord : Option (Cause × Chan) → Word64
  | none => 0
  | some (cause, c) => (chanNumber c ++ cause.code).setWidth 64

/-- The response header `RH` (R52): status in bits 31:24, bits 23:20 zero, the count of data words in bits 19:0. -/
def Response.header (r : Response) : BitVec 32 :=
  r.status.code ++ (0 : BitVec 4) ++ BitVec.ofNat 20 r.data.length

/-- The bytes of a response's data words, each least significant byte first (20_memory.md R39). -/
def Response.dataBytes (r : Response) : List Byte := r.data.flatMap (bytesOf · 8)

/-- The serialised response (R52): the response header, then the data words in order. R39 gives the byte order of the
data words; that the header has the same order is the model's reading (DEDUCED, unsafe: log 18). -/
def Response.toBytes (r : Response) : List Byte := bytesOf r.header 4 ++ r.dataBytes

end Sys2Proof.Machine
end

