-- ==== Sys2Proof/Machine/Float.lean ====
section
/-! DEFINITION. IEEE 754 binary64 arithmetic on bit patterns: `fadd`, `fmul`, `fdiv` of 00_scope.md R10, with the
special values of 41_block_convolver.md R95. A finite number is an integer count of `2^-1074` with a sign, so each
operation computes exactly in integers and rounds once. The IEEE facts are from general knowledge (PRESUMED, safe:
log 8). -/

namespace Sys2Proof.Machine

open Config (FpOp)

/-- The sign bit (R10). -/
def fSign (a : F64) : Bool := a.getLsbD 63

/-- The exponent field, bits 62:52 (R10). -/
def fExp (a : F64) : Nat := (a.extractLsb' 52 11).toNat

/-- The fraction field, bits 51:0 (R10). -/
def fFrac (a : F64) : Nat := (a.extractLsb' 0 52).toNat

/-- `isFinite(a)`: neither an infinity nor a NaN (R10). -/
def isFinite (a : F64) : Bool := decide (fExp a ≠ 2047)

def isNaN (a : F64) : Bool := decide (fExp a = 2047) && decide (fFrac a ≠ 0)

def isInf (a : F64) : Bool := decide (fExp a = 2047) && decide (fFrac a = 0)

/-- A zero of either sign (R95). -/
def isZero (a : F64) : Bool := decide (fExp a = 0) && decide (fFrac a = 0)

/-- `2^-ulpExp` is the smallest subnormal, the unit magnitudes are counted in. -/
def ulpExp : Nat := 1074

/-- The magnitude of a finite number, in units of `2^-1074`; subnormals are kept (R95). -/
def fMag (a : F64) : Nat := if fExp a = 0 then fFrac a else (2 ^ 52 + fFrac a) * 2 ^ (fExp a - 1)

/-- The number of low bits that a magnitude of `q` units has to lose to fit in 53 bits. -/
def dropBits (q : Nat) : Nat := Nat.log2 q - 52

/-- `num / den` rounded to an integer, to nearest, ties to even. -/
def roundDiv (num den : Nat) : Nat :=
  let k := num / den
  let r := num % den
  if den < 2 * r ∨ (2 * r = den ∧ k % 2 = 1) then k + 1 else k

/-- The magnitude bits (exponent and fraction fields as one number) of `num / den` units, rounded once to nearest,
ties to even (R10); a magnitude beyond the largest finite number is an infinity (R95). With `s` low bits dropped
and `k` left, the fields are `s * 2^52 + k`, whether `k` is subnormal, normal or has carried to `2^53`. -/
def roundMag (num den : Nat) : Nat :=
  let s := dropBits (num / den)
  min (s * 2 ^ 52 + roundDiv num (den * 2 ^ s)) (2047 * 2 ^ 52)

/-- A pattern from its sign and its magnitude bits. -/
def packF64 (sign : Bool) (mag : Nat) : F64 := BitVec.ofNat 64 ((if sign then 2 ^ 63 else 0) + mag)

/-- An infinity. -/
def infF64 (sign : Bool) : F64 := packF64 sign (2047 * 2 ^ 52)

/-- Some NaN: sign and fraction are free (R95, U5; log 7). -/
def nanResult (op : FpOp) (a b : F64) : F64 :=
  let w := Config.nanChoice op a b
  let f := fFrac w
  packF64 (fSign w) (2047 * 2 ^ 52 + if f = 0 then 1 else f)

/-- A finite number as a signed count of units. -/
def fUnits (a : F64) : Int := if fSign a then -(fMag a : Int) else (fMag a : Int)

/-- `fadd` of two finite numbers; an exact zero is `+0.0` unless both operands are negative zeros. -/
def faddFinite (a b : F64) : F64 :=
  let z := fUnits a + fUnits b
  if z = 0 then packF64 (fSign a && fSign b) 0 else packF64 (decide (z < 0)) (roundMag z.natAbs 1)

/-- `fadd(a, b)` (R10, R95). -/
def fadd (a b : F64) : F64 :=
  if isNaN a || isNaN b then nanResult .add a b
  else if isInf a then (if isInf b && (fSign a != fSign b) then nanResult .add a b else a)
  else if isInf b then b
  else faddFinite a b

/-- `fmul(a, b)` (R10, R95). -/
def fmul (a b : F64) : F64 :=
  let s := fSign a != fSign b
  if isNaN a || isNaN b then nanResult .mul a b
  else if isInf a || isInf b then (if isZero a || isZero b then nanResult .mul a b else infF64 s)
  else packF64 s (roundMag (fMag a * fMag b) (2 ^ ulpExp))

/-- `fdiv(a, b)` (R10, R95). -/
def fdiv (a b : F64) : F64 :=
  let s := fSign a != fSign b
  if isNaN a || isNaN b then nanResult .div a b
  else if isInf a then (if isInf b then nanResult .div a b else infF64 s)
  else if isInf b then packF64 s 0
  else if isZero b then (if isZero a then nanResult .div a b else infF64 s)
  else packF64 s (roundMag (fMag a * 2 ^ ulpExp) (fMag b))

/-- `+0.0` (R10). -/
def fZero : F64 := 0

/-- `zeros(n)` (R9). -/
def zeros (n : Nat) : List F64 := List.replicate n fZero

end Sys2Proof.Machine
end

