-- ==== Sys2Proof/Machine/Operands.lean ====
section
/-! DEFINITION. Operand forms: how an immediate, a sample word, a length and a capacity are read
(30_encoding.md R50, R51; 00_scope.md R10; 10_state.md R27, R31). -/

namespace Sys2Proof.Machine

/-- `F64ofBits(w)` (R10, R50): every pattern is a legal operand. -/
def f64OfBits (w : Word64) : F64 := w

/-- `bitsF64(v)` (R10). -/
def bitsF64 (v : F64) : Word64 := v

/-- The immediate as the unsigned integer it stands for (R51). -/
def immNat (imm : Imm) : Nat := imm.toNat

/-- A number in the `SETBLK` operand is a legal block length: the test of R100. -/
def validLength (len : Nat) : Bool := decide (2 ≤ len) && decide (len ≤ 8192) && decide (len &&& (len - 1) = 0)

/-- The stored exponent of a legal block length (R14). -/
def expOfLength (len : Nat) : Fin 13 := Fin.ofNat 13 (Nat.log2 len - 1)

/-- A `SETEXP` operand is a legal exponent: the test of R101. -/
def validExp (e : Nat) : Bool := decide (1 ≤ e) && decide (e ≤ 13)

/-- The stored form of a legal exponent (R14). -/
def expOfImm (e : Nat) : Fin 13 := Fin.ofNat 13 (e - 1)

/-- `zext_64` of a natural number, as a CSR shows it (R27, R33). For `2^64` and more no rule states the value:
it is free (log 9). -/
def numberWord (n : Nat) : Word64 := if n < 2 ^ 64 then BitVec.ofNat 64 n else Config.wideNumber n

/-- A capacity as a CSR shows it: an unbounded one reads as all ones (R31). -/
def capacityWord : Option Nat → Word64
  | none => BitVec.allOnes 64
  | some k => numberWord k

/-- `n` samples are more than the capacity holds (20_memory.md R37). -/
def exceeds (cap : Option Nat) (n : Nat) : Bool :=
  match cap with
  | none => false
  | some k => decide (k < n)

end Sys2Proof.Machine
end

