-- ==== Sys2Proof/Machine/Ops.lean ====
section
/-! DEFINITION. The named operations of the machine: access to the state, answering, raising a fault, hardware reset,
and the checks common to the commands (00_scope.md R7, R11; 30_encoding.md R54; 40_channel_pipeline.md R63). -/

namespace Sys2Proof.Machine

/-- What a command answers with. -/
abbrev Result := Host.Outcome State Fault Refusal

/-! ### Reading and writing the state (R11) -/

/-- `ch[c]` of a block. -/
def BlockState.ch (b : BlockState) : Chan → ChannelState
  | .c0 => b.ch0
  | .c1 => b.ch1

/-- `ch[c] <- x` in a block. -/
def BlockState.setCh (b : BlockState) (c : Chan) (x : ChannelState) : BlockState :=
  match c with
  | .c0 => { b with ch0 := x }
  | .c1 => { b with ch1 := x }

/-- The engine registers. -/
def State.eng (s : State) : EngineState := s.block.eng

/-- `ch[c]`. -/
def State.ch (s : State) (c : Chan) : ChannelState := s.block.ch c

/-- `blockLength`, written `L` (R14). -/
def EngineState.blockLength (e : EngineState) : Nat := 2 ^ (e.blkExp.val + 1)

/-- `blockLength`, written `L` (R14). -/
def State.blockLength (s : State) : Nat := s.eng.blockLength

/-- `ch[c] <- x`. -/
def State.setCh (s : State) (c : Chan) (x : ChannelState) : State := { s with block := s.block.setCh c x }

/-- `fault <- f`. -/
def State.setFault (s : State) (f : Option (Cause × Chan)) : State :=
  { s with block := { s.block with eng := { s.block.eng with fault := f } } }

/-- `gain <- g`. -/
def State.setGain (s : State) (g : F64) : State :=
  { s with block := { s.block with eng := { s.block.eng with gain := g } } }

/-- A channel with its overlap buffer set to `zeros(len)` (R18). -/
def ChannelState.zeroOvl (x : ChannelState) (len : Nat) : ChannelState := { x with ovl := zeros len }

/-- `ch[0].ovl <- zeros(L)`, `ch[1].ovl <- zeros(L)`, for the present `L` (42_reconfiguration.md R100 to R102). -/
def State.zeroOverlaps (s : State) : State :=
  { s with block :=
    { s.block with ch0 := s.block.ch0.zeroOvl s.blockLength, ch1 := s.block.ch1.zeroOvl s.blockLength } }

/-- `blockLength <- 2^(k+1)`. -/
def State.setExp (s : State) (k : Fin 13) : State :=
  { s with block := { s.block with eng := { s.block.eng with blkExp := k } } }

/-- The block length is set and both overlap buffers are zeroed at the new length (R100, R101). -/
def State.reconfigure (s : State) (k : Fin 13) : State := (s.setExp k).zeroOverlaps

/-! ### Ending a command (R7, R11) -/

/-- The response is appended to what the block has answered (R38, R44). -/
def State.answer (s : State) (st : Status) (data : List Word64) : State :=
  { s with responses := s.responses ++ [⟨st, data⟩] }

/-- `respond(ST_OK, data)`: outcome (a) of R7, in the state the command has reached. -/
def respondOk (s : State) (data : List Word64) : Result := .next (s.answer .ok data)

/-- `reject st`: outcome (b) of R7, no state of the block changed. -/
def reject (s : State) (st : Status) : Result := .next (s.answer st [])

/-- `raise Fault(cause, c)`: outcome (c) of R7 and the whole of taking an exception (60_exceptions.md R124). The
`fault` register is written and nothing else of the block; the answer is `ST_FAULT` without data; control goes
nowhere. -/
def raiseFault (s : State) (cause : Cause) (c : Chan) : Result :=
  .next ((s.setFault (some (cause, c))).answer .fault [])

/-- Hardware reset (70_reset_and_hazards.md R135), the only way out of the faulted state (R125): the block becomes
`Init(cfg)`, whatever it was; it answers nothing. -/
def hardwareReset (s : State) : Result := .next { s with block := BlockState.init s.cfg }

/-! ### Common checks -/

/-- Step 3 of R54: a command other than `RDCSR` is refused while a fault is recorded (R124). -/
def whenUnfaulted (s : State) (body : Result) : Result :=
  if s.eng.fault.isSome then .next (s.answer .fault []) else body

/-- The tests of `ChanCheck(c)` (R63), in their order; `none` is "no fault". -/
def chanCheck (s : State) (c : Chan) : Option Cause :=
  if (s.ch c).inA.length ≠ (s.ch c).inB.length then some .invQueue
  else if (s.ch c).ovl.length ≠ s.blockLength then some .invOverlap
  else none

/-- Steps 3 and 4 of R54 for a channel-addressed command: the refusal, then `ChanCheck(c)`, then the command's own
effect. -/
def channelCommand (s : State) (c : Chan) (body : Result) : Result :=
  whenUnfaulted s
    (match chanCheck s c with
    | some cause => raiseFault s cause c
    | none => body)

end Sys2Proof.Machine
end

