-- ==== Sys2Proof/Machine/Convolver.lean ====
section
/-! DEFINITION. The Block Convolver (41_block_convolver.md R81 to R85, R93) and the overlap-add and block loop of
`PROC` (40_channel_pipeline.md R65, R66, R69). The kernel and the window are arguments, so that a claim can be made
of every kernel; the machine passes those of its configuration. -/

namespace Sys2Proof.Machine

open Config (Kernel Window)

/-- Step 1: a block zero-extended to twice the block length (R82). -/
def zeroExtend (L : Nat) (a : List F64) : List F64 := a ++ zeros L

/-- Step 3: the slot-wise product of the packed transforms times the gain, left to right, each product rounded
(R84). -/
def slotProduct (g : F64) (ta tb : List F64) : List F64 := List.zipWith (fun x y => fmul (fmul x y) g) ta tb

/-- Step 5: one multiplication by the window per sample (R93). -/
def applyWindow (W : Window) (N : Nat) (y : List F64) : List F64 := List.zipWith fmul y ((List.range N).map (W N))

/-- Steps 1 to 4: the convolver's output before the window (R82 to R85). -/
def convolveRaw (K : Kernel) (L : Nat) (g : F64) (a b : List F64) : List F64 :=
  let N := 2 * L
  K.invT N (slotProduct g (K.fwdT N (zeroExtend L a)) (K.fwdT N (zeroExtend L b)))

/-- `Convolve(L, g, a, b)` (R81). -/
def convolve (K : Kernel) (W : Window) (L : Nat) (g : F64) (a b : List F64) : List F64 :=
  applyWindow W (2 * L) (convolveRaw K L g a b)

/-- `OverlapAdd(L, r, ovl)` (R66): the output samples and the new tail. -/
def overlapAdd (L : Nat) (r ovl : List F64) : List F64 × List F64 :=
  (List.zipWith fadd (r.take L) ovl, r.drop L)

/-- `BlockCount(n0, L)` in the closed form of R69. -/
def blockCount (n0 L : Nat) : Nat := (n0 - 1) / L

/-- One turn of the loop of R65. -/
def processBlock (K : Kernel) (W : Window) (L : Nat) (g : F64) (x : ChannelState) : ChannelState :=
  let r := convolve K W L g (x.inA.take L) (x.inB.take L)
  let (out, tail) := overlapAdd L r x.ovl
  { inA := x.inA.drop L, inB := x.inB.drop L, ovl := tail, outQ := x.outQ ++ out, lat := x.lat }

/-- The loop of R65, `while len(inA) > L`, with a bound on its turns; the length of `inA` is bound enough, since
each turn removes `L` samples. -/
def processBlocks (K : Kernel) (W : Window) (L : Nat) (g : F64) : Nat → ChannelState → ChannelState
  | 0, x => x
  | fuel + 1, x =>
    if L < x.inA.length then processBlocks K W L g fuel (processBlock K W L g x) else x

/-- Everything `PROC` does to its channel (R65). -/
def processAvailable (K : Kernel) (W : Window) (L : Nat) (g : F64) (x : ChannelState) : ChannelState :=
  processBlocks K W L g x.inA.length x

end Sys2Proof.Machine
end

