-- ==== Sys2Proof/Machine/Tables.lean ====
section
/-! DEFINITION. The Transform Kernel and the window of a configuration (00_scope.md R5; 41_block_convolver.md R86, R93):
what its tables list, and the free values elsewhere. -/

namespace Sys2Proof.Machine

open Config (Kernel Params TransformEntry Window WindowRow)

/-- Slot `i` of the result a table lists for a length and an input. -/
def listedSlot (table : List TransformEntry) (N : Nat) (x : List F64) (i : Nat) : Option F64 :=
  (table.find? fun e => decide (e.length = N ∧ e.input = x)).bind (·.output[i]?)

/-- The value a window table lists for a length and an index. -/
def listedValue (table : List WindowRow) (N i : Nat) : Option F64 :=
  (table.find? fun r => decide (r.length = N)).bind (·.values[i]?)

/-- The kernel of a configuration (R86; log 5): a result depends on the length and the input alone, and is taken slot
by slot, so that it has that length whatever the table lists. -/
def kernelOf (p : Params) : Kernel :=
  { fwd := fun N x i => (listedSlot p.kernelTable.fwd N x i).getD (Config.fwdSlot N x i)
    inv := fun N x i => (listedSlot p.kernelTable.inv N x i).getD (Config.invSlot N x i) }

/-- The window of a configuration (R93; log 6). -/
def windowOf (p : Params) : Window := fun N i => (listedValue p.winTable N i).getD (Config.winValue N i)

end Sys2Proof.Machine
end

