-- ==== Sys2Proof/Machine/Channel.lean ====
section
/-! DEFINITION. The Channel Pipeline commands `PUSH`, `PROC`, `DRAIN` (40_channel_pipeline.md R64, R65, R67). -/

namespace Sys2Proof.Machine

/-- One sample appended to each input queue (R64; 20_memory.md R36). -/
def ChannelState.push (x : ChannelState) (a b : F64) : ChannelState :=
  { x with inA := x.inA ++ [a], inB := x.inB ++ [b] }

/-- `PUSH c, a, b` (R64). -/
def execPush (c : Chan) (a b : Word64) (s : State) : Result :=
  channelCommand s c <|
    if exceeds s.cfg.inqCap ((s.ch c).inA.length + 1) then raiseFault s .ovfInput c
    else respondOk (s.setCh c ((s.ch c).push (f64OfBits a) (f64OfBits b))) []

/-- `PROC c` (R65) with a given kernel and window: the capacity for all its blocks is tested before the first. -/
def procWith (K : Config.Kernel) (W : Config.Window) (c : Chan) (s : State) : Result :=
  let L := s.blockLength
  channelCommand s c <|
    if exceeds s.cfg.outqCap ((s.ch c).outQ.length + blockCount (s.ch c).inA.length L * L) then
      raiseFault s .ovfOutput c
    else respondOk (s.setCh c (processAvailable K W L s.eng.gain (s.ch c))) []

/-- `PROC c` (R65), with the kernel and the window of the configuration (00_scope.md R5). -/
def execProc (c : Chan) (s : State) : Result := procWith (kernelOf s.cfg) (windowOf s.cfg) c s

/-- The shortfall of a `DRAIN` of `n` samples: `latency = max(0, n - len(outQ))` (R67). -/
def ChannelState.shortfall (x : ChannelState) (n : Nat) : Nat := n - x.outQ.length

/-- How many samples a `DRAIN` of `n` takes from the output queue: `k = min(n - latency, len(outQ))` (R67). -/
def ChannelState.ready (x : ChannelState) (n : Nat) : Nat := min (n - x.shortfall n) x.outQ.length

/-- The samples a `DRAIN` of `n` delivers: zeros, then the oldest queued samples (R67). -/
def ChannelState.drained (x : ChannelState) (n : Nat) : List F64 :=
  zeros (x.shortfall n) ++ x.outQ.take (x.ready n)

/-- The channel after a `DRAIN` of `n` (R67). -/
def ChannelState.drain (x : ChannelState) (n : Nat) : ChannelState :=
  { x with outQ := x.outQ.drop (x.ready n), lat := x.shortfall n }

/-- `DRAIN c, n` (R67). -/
def execDrain (c : Chan) (n : Imm) (s : State) : Result :=
  channelCommand s c <|
    respondOk (s.setCh c ((s.ch c).drain (immNat n))) (((s.ch c).drained (immNat n)).map bitsF64)

end Sys2Proof.Machine
end

