-- ==== Sys2Proof/Machine/Gain.lean ====
section
/-! DEFINITION. The Gain Controller command `SETGAIN` (43_gain.md R109). -/

namespace Sys2Proof.Machine

/-- The gain map: one division by `1000000.0` (R109). -/
def gainOf (p : F64) : F64 := fdiv p Config.gainDiv

/-- `SETGAIN p` (R109). -/
def execSetgain (p : Word64) (s : State) : Result :=
  whenUnfaulted s <|
    if isFinite (f64OfBits p) then respondOk (s.setGain (gainOf (f64OfBits p))) [] else reject s .cfgErr

end Sys2Proof.Machine
end

