-- ==== Sys2Proof/Machine/Reconfig.lean ====
section
/-! DEFINITION. The Reconfiguration Controller commands `SETBLK`, `SETEXP`, `RESET` (42_reconfiguration.md R100 to
R102). -/

namespace Sys2Proof.Machine

/-- `SETBLK len` (R100). -/
def execSetblk (len : Imm) (s : State) : Result :=
  whenUnfaulted s <|
    if validLength (immNat len) then respondOk (s.reconfigure (expOfLength (immNat len))) []
    else reject s .cfgErr

/-- `SETEXP e` (R101). -/
def execSetexp (e : Imm) (s : State) : Result :=
  whenUnfaulted s <|
    if validExp (immNat e) then respondOk (s.reconfigure (expOfImm (immNat e))) []
    else reject s .cfgErr

/-- `RESET`, the soft reset (R102, 70_reset_and_hazards.md R137). -/
def execReset (s : State) : Result := whenUnfaulted s (respondOk s.zeroOverlaps [])

end Sys2Proof.Machine
end

