-- ==== Sys2Proof/Machine/StatusRead.lean ====
section
/-! DEFINITION. The status read-out `RDCSR` (44_status.md R113) over the registers of 10_state.md R27 to R33. -/

namespace Sys2Proof.Machine

/-- The "value read" column of R27; an engine register reads the same for either channel. -/
def csrValue (s : State) (c : Chan) : Csr → Word64
  | .blklen => numberWord s.blockLength
  | .gain => bitsF64 s.eng.gain
  | .fault => faultWord s.eng.fault
  | .nchan => numberWord Config.nchan
  | .maxblk => numberWord Config.maxBlock
  | .inqcap => capacityWord s.cfg.inqCap
  | .outqcap => capacityWord s.cfg.outqCap
  | .latency => numberWord (s.ch c).lat
  | .inlvla => numberWord (s.ch c).inA.length
  | .inlvlb => numberWord (s.ch c).inB.length
  | .outlvl => numberWord (s.ch c).outQ.length
  | .ovllen => numberWord (s.ch c).ovl.length

/-- `RDCSR csr, c` (R113): it completes whether or not a fault is recorded, and answers `ST_ILLEGAL` to a number
that is not legal (30_encoding.md R54, step 2; the decoder gives no such command, log 14). -/
def execRdcsr (c : Chan) (csr : Imm) (s : State) : Result :=
  match csrSelect c csr with
  | some r => respondOk s [csrValue s c r]
  | none => reject s .illegal

end Sys2Proof.Machine
end

