-- ==== Sys2Proof/Machine/Dispatch.lean ====
section
/-! DEFINITION. The meaning of a command: one arm per row of the opcode map (30_encoding.md R49). -/

namespace Sys2Proof.Machine

def exec (i : Instr) (s : State) : Host.Outcome State Fault Refusal :=
  match i with
  | .push c a b => Sys2Proof.Machine.execPush c a b s
  | .proc c => Sys2Proof.Machine.execProc c s
  | .drain c n => Sys2Proof.Machine.execDrain c n s
  | .setblk len => Sys2Proof.Machine.execSetblk len s
  | .setexp e => Sys2Proof.Machine.execSetexp e s
  | .setgain p => Sys2Proof.Machine.execSetgain p s
  | .reset => Sys2Proof.Machine.execReset s
  | .rdcsr c csr => Sys2Proof.Machine.execRdcsr c csr s

end Sys2Proof.Machine
end

