-- ==== Sys2Proof/Machine/Port.lean ====
section
/-! DEFINITION. The command port (20_memory.md R38, R44): taking the next thing the host has presented, what an illegal
packet is answered, what the block does when nothing is presented. -/

namespace Sys2Proof.Machine

/-- The oldest thing the host has presented, and the state in which it has been taken (R44). -/
def takeInput (s : State) : Option (HostInput × State) :=
  match s.input with
  | [] => none
  | x :: rest => some (x, { s with input := rest })

/-- Nothing is presented: the block has no step of its own between commands and holds its state (00_scope.md R6;
60_exceptions.md R133; log 1). -/
def idle (s : State) : Result := .next s

/-- An illegal packet is answered `ST_ILLEGAL` and changes no state, whatever the reason (30_encoding.md R55;
60_exceptions.md R122). -/
def answerIllegal (_why : Illegal) (s : State) : Result := reject s .illegal

/-- A packet on the command port, ahead of everything the host has presented already. -/
def State.presentFirst (s : State) (p : Packet) : State := { s with input := .packet p :: s.input }

end Sys2Proof.Machine
end

