-- ==== Sys2Proof/Machine/Step.lean ====
section
/-! DEFINITION. One step: the next thing the host has presented is taken and answered (00_scope.md R6;
30_encoding.md R54). -/

namespace Sys2Proof.Machine

/-- One step of the machine: a packet is decoded (R54, steps 1 and 2) and its command executed, an illegal one is
answered, the reset input resets the block, and with nothing presented the block holds its state. -/
def step (s : State) : Host.Outcome State Fault Refusal :=
  match takeInput s with
  | none => idle s
  | some (.hardwareReset, s') => hardwareReset s'
  | some (.packet p, s') =>
    match decode p with
    | .ok i => exec i s'
    | .error why => answerIllegal why s'

/-- `s` with an opcode-table word presented on the command port, as the next thing `step` takes (logs 12, 13). -/
def State.withFetchWord (s : State) (nbits w : Nat) : State := s.presentFirst (packetOfTableWord nbits w)

end Sys2Proof.Machine
end

