-- ==== Sys2Proof/Machine/Contract.lean ====
section
/-! DEFINITION. The named properties a claim may assume of the kernel, the window and the arithmetic
(41_block_convolver.md R86 to R94; 00_scope.md R10). No rule of the machine reads anything in this file. -/

namespace Sys2Proof.Machine

open Config (Kernel Window)

/-! ### The value of a pattern, and rounding to nearest, ties to even (R10) -/

/-- The number a finite pattern stands for. -/
def toRat (a : F64) : ℚ := (fUnits a : ℚ) / 2 ^ ulpExp

/-- Half-way between the largest finite number and `2^1024`: numbers of this size and more round to an infinity. -/
def overflowBound : ℚ := (2 ^ 54 - 1) * 2 ^ 970

/-- `r` is the exact number `z` rounded once, to nearest, ties to even (R10): below the overflow bound no finite
number is nearer, and of two equally near numbers the one with the even fraction is taken; from the bound on, `r` is
the infinity of `z`'s sign (R95). -/
def RoundsTo (z : ℚ) (r : F64) : Prop :=
  (|z| < overflowBound → isFinite r = true ∧ ∀ c : F64, isFinite c = true →
    |toRat r - z| ≤ |toRat c - z| ∧
    (|toRat c - z| = |toRat r - z| → toRat c = toRat r ∨ r.getLsbD 0 = false)) ∧
  (overflowBound ≤ |z| → isInf r = true ∧ (fSign r = true ↔ z < 0))

/-! ### The kernel (R86 to R92) -/

/-- The lengths the kernel is used at: `N = 2^j`, `j` in `[2, 14]` (R86). -/
def kernelLength (N : Nat) : Prop := ∃ j, 2 ≤ j ∧ j ≤ 14 ∧ N = 2 ^ j

/-- `K_ZERO` (R91). -/
def KZero (K : Kernel) : Prop :=
  ∀ N x, kernelLength N → x.length = N → (∀ v ∈ x, isZero v = true) →
    (∀ v ∈ K.fwdT N x, isZero v = true) ∧ (∀ v ∈ K.invT N x, isZero v = true)

/-- `K_FINITE` (R91). Whether an intermediate overflows is the affair of each transform, so the inputs on which none
does are arguments, one for `FwdT` and one for `InvT`. -/
def KFinite (noOverflowFwd noOverflowInv : Nat → List F64 → Prop) (K : Kernel) : Prop :=
  ∀ N x, kernelLength N → x.length = N → (∀ v ∈ x, isFinite v = true) →
    (noOverflowFwd N x → ∀ v ∈ K.fwdT N x, isFinite v = true) ∧
    (noOverflowInv N x → ∀ v ∈ K.invT N x, isFinite v = true)

/-- What a slot of the packed layout holds. -/
inductive SlotMeaning
  | dc | nyquist | re (k : Nat) | im (k : Nat)
deriving DecidableEq, Repr

/-- `K_LAYOUT` (R87): slot 0 is bin 0, slot 1 the Nyquist bin, slots `2k` and `2k + 1` the real and imaginary parts
of bin `k`. -/
def slotMeaning (i : Nat) : SlotMeaning :=
  if i = 0 then .dc else if i = 1 then .nyquist else if i % 2 = 0 then .re (i / 2) else .im (i / 2)

/-- `X` is the ideal forward transform of `x` in the packed layout, `σ` being `KSIGN` (R88). -/
def IdealFwd (σ : ℝ) (N : Nat) (x X : Nat → ℝ) : Prop :=
  ∀ i, i < N → X i =
    match slotMeaning i with
    | .dc => ∑ j ∈ Finset.range N, x j
    | .nyquist => ∑ j ∈ Finset.range N, (-1) ^ j * x j
    | .re k => ∑ j ∈ Finset.range N, x j * Real.cos (2 * Real.pi * j * k / N)
    | .im k => σ * ∑ j ∈ Finset.range N, x j * Real.sin (2 * Real.pi * j * k / N)

/-- `y` is the ideal inverse transform of the packed `X`, `σ` being `KSIGN` and `ρ` being `KRHO(N)` (R90). -/
def IdealInv (σ ρ : ℝ) (N : Nat) (X y : Nat → ℝ) : Prop :=
  ∀ j, j < N → y j = ρ / N * (X 0 + (-1) ^ j * X 1 + 2 * ∑ k ∈ Finset.Ico 1 (N / 2),
    (X (2 * k) * Real.cos (2 * Real.pi * j * k / N) + σ * X (2 * k + 1) * Real.sin (2 * Real.pi * j * k / N)))

/-- `KSIGN` (R89). -/
def IsKSign (σ : ℝ) : Prop := σ = 1 ∨ σ = -1

/-- The samples of a list as real numbers, 0 beyond its end. -/
def Samples (x : List F64) (u : Nat → ℝ) : Prop := ∀ j, u j = ((toRat (x.getD j 0) : ℚ) : ℝ)

/-- `a` is a finite number that differs from `z` by at most `d`: an infinity or a NaN is near no number. -/
def Near (d z : ℝ) (a : F64) : Prop := isFinite a = true ∧ |((toRat a : ℚ) : ℝ) - z| ≤ d

/-- `K_IDEAL(ε)` (R91) for a sign, a scale constant `c` with `KRHO(N) = c * N` (R90), and a norm of the input that
the claim states: on finite inputs each result element is finite and differs from the ideal one by at most `ε` times
the norm. -/
def KIdeal (σ c ε : ℝ) (norm : Nat → List F64 → ℝ) (K : Kernel) : Prop :=
  IsKSign σ ∧ 0 < c ∧ ∀ N x u, kernelLength N → x.length = N → (∀ v ∈ x, isFinite v = true) → Samples x u →
    (∀ X, IdealFwd σ N u X → ∀ i, i < N → Near (ε * norm N x) (X i) (K.fwd N x i)) ∧
    (∀ y, IdealInv σ (c * N) N u y → ∀ i, i < N → Near (ε * norm N x) (y i) (K.inv N x i))

/-- The reference kernel `REFK` (R92): `KSIGN = +1`, `KRHO(N) = N / 2`, ideal arithmetic. -/
def RefKernel (N : Nat) (x X y : Nat → ℝ) : Prop := IdealFwd 1 N x X ∧ IdealInv 1 ((N : ℝ) / 2) N X y

/-! ### The window (R93) -/

/-- `W_ZERO` (R93). -/
def WZero (W : Window) : Prop := ∀ N, kernelLength N → W N 0 = fZero

/-- `W_RANGE` (R93). -/
def WRange (W : Window) : Prop :=
  ∀ N i, kernelLength N → i < N → isFinite (W N i) = true ∧ 0 ≤ toRat (W N i) ∧ toRat (W N i) ≤ 1

/-- `W_POS` (R93): a NaN is not greater than 0, and of the infinities `+inf` is. -/
def WPos (W : Window) : Prop :=
  ∀ N i, kernelLength N → 1 ≤ i → i < N →
    isFinite (W N i) = true ∧ 0 < toRat (W N i) ∨ isInf (W N i) = true ∧ fSign (W N i) = false

/-- The ideal window value `sqrt(sin(i * pi / N))` (R93), within `ε`. -/
def WIdeal (ε : ℝ) (W : Window) : Prop :=
  ∀ N i, kernelLength N → i < N → Near ε (Real.sqrt (Real.sin (i * Real.pi / N))) (W N i)

end Sys2Proof.Machine
end

