-- ==== Sys2Proof/Machine/Pseudo.lean ====
section
/-! DEFINITION. The pseudo-instructions of 30_encoding.md R61 and R62, as the lists of commands they expand to. -/

namespace Sys2Proof.Machine

/-- `PUSHN ch, [a0, ...], [b0, ...]` (R61), for the sample pairs `(a0, b0), ...`. -/
def pushN (c : Chan) (samples : List (F64 × F64)) : List Instr := samples.map fun x => .push c x.1 x.2

/-- `CALLBACK ch, [a0, ...], [b0, ...]` (R62): the pushes, `PROC`, and a `DRAIN` of as many samples. A `DRAIN` can carry
at most `2^20 - 1` (R51, D20) and R62 does not say what a `CALLBACK` of more samples expands to; the model takes the
length modulo `2^20` there (DESIGN CHOICE, unsafe: log 17). -/
def callback (c : Chan) (samples : List (F64 × F64)) : List Instr :=
  pushN c samples ++ [.proc c, .drain c (BitVec.ofNat 20 samples.length)]

end Sys2Proof.Machine
end

