-- ==== Sys2Proof/Safety.lean ====
section
/-! DEFINITION. What counts as a safe state and a safe run (10_state.md R21; 60_exceptions.md R124;
70_reset_and_hazards.md R139), and the vocabulary of the statements about commands. -/

namespace Sys2Proof.Machine

/-! ### Invariants (R21) -/

/-- `IQ(c)`: the two input queues of a channel have the same length. -/
abbrev QueuesAgree (s : State) (c : Chan) : Prop := (s.ch c).inA.length = (s.ch c).inB.length

/-- `IO(c)`: the overlap buffer is as long as the block length. -/
abbrev OverlapFits (s : State) (c : Chan) : Prop := (s.ch c).ovl.length = s.blockLength

/-- `IB`: the block length is `2^k` with `k` in `[1, 13]`. -/
def LengthLegal (s : State) : Prop := ∃ k, 1 ≤ k ∧ k ≤ 13 ∧ s.blockLength = 2 ^ k

/-- `n` samples are within a capacity (20_memory.md R37). -/
abbrev Within (cap : Option Nat) (n : Nat) : Prop := ∀ k ∈ cap, n ≤ k

/-- What every step keeps: legal parameters (R5), a finite gain (R15), and for each channel `IQ`, `IO`, queues within
their capacities (R37) and a latency of at most 20 bits (R20). -/
structure Inv (s : State) : Prop where
  legal : s.cfg.Legal
  lengthLegal : LengthLegal s
  gainFinite : isFinite s.eng.gain = true
  queues : ∀ c, QueuesAgree s c
  overlap : ∀ c, OverlapFits s c
  inputFits : ∀ c, Within s.cfg.inqCap (s.ch c).inA.length
  outputFits : ∀ c, Within s.cfg.outqCap (s.ch c).outQ.length
  latency : ∀ c, (s.ch c).lat ≤ Config.maxNFrames

/-! ### Safe states and runs -/

/-- No fault is recorded: the run so far has not gone wrong (R139). -/
abbrev Unfaulted (s : State) : Prop := s.eng.fault = none

/-- A channel-addressed command on `c` gets past the refusal and `ChanCheck(c)` (30_encoding.md R54; R63). -/
abbrev Ready (s : State) (c : Chan) : Prop := Unfaulted s ∧ QueuesAgree s c ∧ OverlapFits s c

/-- The state after a list of commands, each executed in turn (20_memory.md R44). -/
def runAll : List Instr → State → Result
  | [], s => .next s
  | i :: is, s =>
    match exec i s with
    | .next s' => runAll is s'
    | .fault r => .fault r
    | .refused r => .refused r

/-! ### What a command answers and leaves alone -/

/-- `t` is `s` with one more response; what the host has presented and the parameters are as before. -/
def Answered (s t : State) (st : Status) (data : List Word64) : Prop :=
  t.responses = s.responses ++ [⟨st, data⟩] ∧ t.cfg = s.cfg ∧ t.input = s.input

/-- Every register of the engine and every other channel is as before. -/
def OnlyChannel (c : Chan) (s t : State) : Prop := t.eng = s.eng ∧ ∀ d, d ≠ c → t.ch d = s.ch d

/-- The block is as before but for the `fault` register, which holds `f` (60_exceptions.md R124). -/
def FaultEntered (s t : State) (f : Cause × Chan) : Prop :=
  t.eng = { s.eng with fault := some f } ∧ (∀ c, t.ch c = s.ch c) ∧ Answered s t .fault []

/-- The command ended with a status and no data, and changed no state of the block (R7 b). -/
def Rejected (s t : State) (st : Status) : Prop := t.block = s.block ∧ Answered s t st []

/-- The block length is `len`, both overlap buffers are `zeros(len)`, and every other register, queue and latency is as
before (42_reconfiguration.md R100). -/
def Reconfigured (s t : State) (len : Nat) : Prop :=
  t.blockLength = len ∧ t.eng.gain = s.eng.gain ∧ t.eng.fault = s.eng.fault ∧
  (∀ c, (t.ch c).ovl = zeros len ∧ (t.ch c).inA = (s.ch c).inA ∧ (t.ch c).inB = (s.ch c).inB ∧
    (t.ch c).outQ = (s.ch c).outQ ∧ (t.ch c).lat = (s.ch c).lat) ∧
  Answered s t .ok []

/-- The channel of a channel-addressed command, `PUSH`, `PROC` or `DRAIN` (10_state.md R23). -/
def addressed : Instr → Option Chan
  | .push c _ _ => some c
  | .proc c => some c
  | .drain c _ => some c
  | .setblk _ | .setexp _ | .setgain _ | .reset | .rdcsr _ _ => none

/-- The same channel-addressed command on another channel. -/
def readdress (d : Chan) : Instr → Instr
  | .push _ a b => .push d a b
  | .proc _ => .proc d
  | .drain _ n => .drain d n
  | .setblk len => .setblk len
  | .setexp e => .setexp e
  | .setgain p => .setgain p
  | .reset => .reset
  | .rdcsr c csr => .rdcsr c csr

/-- The command takes an operand from `OPA` (30_encoding.md R49). -/
def usesOpa : Instr → Bool
  | .push _ _ _ | .setgain _ => true
  | .proc _ | .drain _ _ | .setblk _ | .setexp _ | .reset | .rdcsr _ _ => false

/-- The command takes an operand from `OPB` (30_encoding.md R49). -/
def usesOpb : Instr → Bool
  | .push _ _ _ => true
  | .proc _ | .drain _ _ | .setblk _ | .setexp _ | .setgain _ | .reset | .rdcsr _ _ => false

/-- `RDCSR` with this channel and number answers this word, and changes nothing else (44_status.md R113). -/
def Reads (s : State) (c : Chan) (csr : Imm) (w : Word64) : Prop :=
  exec (.rdcsr c csr) s = .next { s with responses := s.responses ++ [⟨.ok, [w]⟩] }

/-- The cases (a), (b) and (c) of 30_encoding.md R55, over the fields of a header. -/
def IllegalHeader (h : Header) : Prop :=
  h.op ∉ [0x01, 0x02, 0x03, 0x10, 0x11, 0x12, 0x13, 0x20] ∨
  (h.op ∈ [0x01, 0x02, 0x03, 0x20] ∧ 2 ≤ h.ch.toNat ∨ h.op ∈ [0x10, 0x11, 0x12, 0x13] ∧ h.ch ≠ 0) ∨
  (h.op ∈ [0x01, 0x02, 0x12, 0x13] ∧ h.imm ≠ 0)

/-- The cases (a) to (d) of 30_encoding.md R55. -/
def IllegalPacket (p : Packet) : Prop :=
  let h := p.header
  IllegalHeader h ∨
  (h.op = 0x20 ∧ ¬(h.imm.toNat ≤ 0x06 ∧ h.ch = 0 ∨ 0x10 ≤ h.imm.toNat ∧ h.imm.toNat ≤ 0x14 ∧ h.ch.toNat < 2))

/-! ### The latency recurrence (40_channel_pipeline.md R72) -/

/-- `r_k`: the input level left after a total of `S` pushed samples. -/
def levelAfter (L S : Nat) : Nat := S - L * blockCount S L

/-- After callbacks of sizes `ns`: the total pushed `S_k`, the last zeros total `Z_(k-1)`, and `Z_k`. -/
def callbackTotals (L : Nat) (ns : List Nat) : Nat × Nat × Nat :=
  ns.foldl (fun (S, _, Z) n => (S + n, Z, max Z (levelAfter L (S + n)))) (0, 0, 0)

end Sys2Proof.Machine
end

