-- ==== Sys2Proof/Certificates/Slice0/Obligations.lean ====
section
/-! DEFINITION. The statements for the provers. Each docstring names the rule of spec/ it rests on. -/

open Sys2Proof Sys2Proof.Machine
open Sys2Proof.Config (Kernel KernelTable Window WindowRow)

/-! ### Reset, invariants, the step -/

/-- R136: what hardware reset leaves, for all open parameters, the CSR map included. -/
def Obligations.HardwareResetLeavesTheInitValues : Prop :=
  ∀ p : Config.Params,
    let s := State.init p
    let L := 2 ^ (p.defaultExp.val + 1)
    s.blockLength = L ∧ s.eng.fault = none ∧
    s.eng.gain = fdiv 0x4024000000000000 0x412E848000000000 ∧ s.eng.gain = 0x3EE4F8B588E368F1 ∧
    (∀ c, (s.ch c).inA = [] ∧ (s.ch c).inB = [] ∧ (s.ch c).ovl = List.replicate L 0 ∧ (s.ch c).outQ = [] ∧
      (s.ch c).lat = 0) ∧
    LengthLegal s ∧ (∀ c, QueuesAgree s c ∧ OverlapFits s c) ∧
    Reads s .c0 0x00 (BitVec.ofNat 64 L) ∧ Reads s .c0 0x01 0x3EE4F8B588E368F1 ∧ Reads s .c0 0x02 0 ∧
    Reads s .c0 0x03 2 ∧ Reads s .c0 0x04 8192 ∧
    (p.inqCap = none → Reads s .c0 0x05 0xFFFFFFFFFFFFFFFF) ∧
    (∀ k, p.inqCap = some k → k < 2 ^ 64 → Reads s .c0 0x05 (BitVec.ofNat 64 k)) ∧
    (p.outqCap = none → Reads s .c0 0x06 0xFFFFFFFFFFFFFFFF) ∧
    (∀ k, p.outqCap = some k → k < 2 ^ 64 → Reads s .c0 0x06 (BitVec.ofNat 64 k)) ∧
    ∀ c, Reads s c 0x10 0 ∧ Reads s c 0x11 0 ∧ Reads s c 0x12 0 ∧ Reads s c 0x13 0 ∧
      Reads s c 0x14 (BitVec.ofNat 64 L)

/-- R135, R125: the reset input brings any state, a faulted one too, to `Init(cfg)`. That it is an entry of `input`
and answers nothing is the model's choice (log 10). -/
def Obligations.ResetInputBringsAnyStateToInit : Prop :=
  ∀ (s : State) (rest : List HostInput), s.input = .hardwareReset :: rest →
    ∃ t, step s = .next t ∧ t.block = (State.init s.cfg).block ∧ t.cfg = s.cfg ∧ t.input = rest ∧
      t.responses = s.responses

/-- R21, R136: the invariant holds after reset, for all legal parameters and for the model's own reset state. -/
def Obligations.InvariantHoldsAfterReset : Prop :=
  (∀ p : Config.Params, p.Legal → Inv (State.init p)) ∧ Inv State.reset

/-- R21 (`IQ`, `IO`, `IB`), R15 (a finite gain), R20 (a 20-bit latency), R37 (queues within their capacities): every
step keeps them, from every state that has them. -/
def Obligations.StepKeepsTheInvariant : Prop :=
  ∀ s t : State, Inv s → step s = .next t → Inv t

/-- R52, R54, R6: every packet, legal or not, is taken and answered by exactly one response; only `ST_OK` carries data,
and as many words as R52 says; the response header is laid out as R52 says. -/
def Obligations.EveryPacketGetsOneResponse : Prop :=
  ∀ (s : State) (p : Packet) (rest : List HostInput), s.input = .packet p :: rest →
    ∃ (t : State) (r : Response), step s = .next t ∧ t.input = rest ∧ t.responses = s.responses ++ [r] ∧
      (r.status ≠ .ok → r.data = []) ∧
      (r.status = .ok →
        (∀ c n, decode p = .ok (.drain c n) → r.data.length = n.toNat) ∧
        (∀ c csr, decode p = .ok (.rdcsr c csr) → r.data.length = 1) ∧
        ((∀ c n, decode p ≠ .ok (.drain c n)) → (∀ c csr, decode p ≠ .ok (.rdcsr c csr)) → r.data = [])) ∧
      r.header.extractLsb' 24 8 = r.status.code ∧ r.header.extractLsb' 20 4 = 0 ∧
      (r.header.extractLsb' 0 20).toNat = r.data.length

/-- R54: a step runs the command the packet on the port decodes to, with the packet taken. The second clause is no rule
of the spec: that `withFetchWord` presents an opcode-table word as the next packet is the model's choice (log 12), and so
is the place of bits above 31 in such a word (log 13). -/
def Obligations.StepRunsTheDecodedCommand : Prop :=
  (∀ (s : State) (p : Packet) (rest : List HostInput) (i : Instr),
    s.input = .packet p :: rest → decode p = .ok i → step s = exec i { s with input := rest }) ∧
  (∀ (s : State) (nbits w : Nat) (i : Instr),
    decodeTableWord nbits w = some i → step (s.withFetchWord nbits w) = exec i s)

/-- R6, R133: with nothing presented the block holds its state. That the model has a step there is its choice
(log 1). -/
def Obligations.IdleStepHoldsTheState : Prop :=
  ∀ s : State, s.input = [] → step s = .next s

/-! ### Encoding -/

/-- R55, R122: a packet is illegal in exactly the listed cases, the first three of which are "no row of R49 matches";
then it is answered `ST_ILLEGAL`, without data, and changes no state, in a faulted block too; no other packet is
answered so. -/
def Obligations.IllegalPacketsAreExactlyTheListedOnes : Prop :=
  (∀ p : Packet, (∃ why, decode p = .error why) ↔ IllegalPacket p) ∧ IllegalPacket 0 ∧
  (∀ h : Header, IllegalHeader h ↔ ∀ r ∈ opRows, h &&& r.mask ≠ r.pat) ∧
  ∀ (s : State) (p : Packet) (rest : List HostInput), s.input = .packet p :: rest →
    (IllegalPacket p → ∃ t, step s = .next t ∧ Rejected { s with input := rest } t .illegal) ∧
    (¬ IllegalPacket p → ∃ t r, step s = .next t ∧ t.responses = s.responses ++ [r] ∧ r.status ≠ .illegal)

/-- R49: no two rows of the opcode map match the same header. -/
def Obligations.NoTwoRowsMatchOneHeader : Prop :=
  ∀ (h : Header) (r r' : OpRow), r ∈ opRows → r' ∈ opRows → h &&& r.mask = r.pat → h &&& r'.mask = r'.pat → r = r'

/-- R47 to R51, R54: the packet a well-formed command is encoded as decodes to that command, for every command and
every value of its operands. -/
def Obligations.DecodeOfEncodeIsTheCommand : Prop :=
  ∀ i : Instr, WellFormed i → decode (encode i) = .ok i

/-- R47, R49, R50: what a packet decodes to is well formed and has the packet's header and the operand words it uses;
an operand word it does not use has no effect. -/
def Obligations.UnusedOperandWordsAreIgnored : Prop :=
  ∀ (p : Packet) (i : Instr), decode p = .ok i →
    WellFormed i ∧ i.header = p.header ∧
    (usesOpa i = true → i.opa = p.opa) ∧ (usesOpb i = true → i.opb = p.opb) ∧
    ∀ q : Packet, q.header = p.header → (usesOpa i = true → q.opa = p.opa) → (usesOpb i = true → q.opb = p.opb) →
      decode q = .ok i

/-- R58, R39: the 20 bytes of a packet are those of `OPB`, `OPA` and `H`, each least significant first, the last one
the opcode; reading them from a stream gives the packet back. -/
def Obligations.PacketBytesAreLeastSignificantFirst : Prop :=
  ∀ (p : Packet) (rest : List Byte),
    p.toBytes = bytesOf p.opb 8 ++ bytesOf p.opa 8 ++ bytesOf p.header 4 ∧
    p.toBytes.length = 20 ∧ p.toBytes[0]? = some (p.opb.extractLsb' 0 8) ∧ p.toBytes[19]? = some p.header.op ∧
    Packet.ofBytes (p.toBytes ++ rest) = some (p, rest)

/-- R60: the worked packets of the listing. -/
def Obligations.WorkedPacketsDecode : Prop :=
  decode 0x010000003FF00000000000003FF0000000000000 = .ok (.push .c0 0x3FF0000000000000 0x3FF0000000000000) ∧
  decode 0x0110000040000000000000004010000000000000 = .ok (.push .c1 0x4000000000000000 0x4010000000000000) ∧
  decode 0x0200000000000000000000000000000000000000 = .ok (.proc .c0) ∧
  decode 0x0310000300000000000000000000000000000000 = .ok (.drain .c1 3) ∧
  decode 0x1000006400000000000000000000000000000000 = .ok (.setblk 100) ∧
  decode 0x1100000D00000000000000000000000000000000 = .ok (.setexp 13) ∧
  decode 0x12000000412E8480000000000000000000000000 = .ok (.setgain 0x412E848000000000) ∧
  decode 0x1300000000000000000000000000000000000000 = .ok .reset ∧
  decode 0x2010001000000000000000000000000000000000 = .ok (.rdcsr .c1 0x10)

/-! ### Channel commands -/

/-- R64: `PUSH` on a channel that passes its checks appends one sample to each input queue and changes nothing else;
with the queue full it raises `OVF_INPUT`; a failed `ChanCheck` raises that fault. -/
def Obligations.PushAppendsOneSampleToEachQueue : Prop :=
  ∀ (s : State) (c : Chan) (a b : F64),
    (Ready s c → Within s.cfg.inqCap ((s.ch c).inA.length + 1) →
      ∃ t, exec (.push c a b) s = .next t ∧
        (t.ch c).inA = (s.ch c).inA ++ [a] ∧ (t.ch c).inB = (s.ch c).inB ++ [b] ∧
        (t.ch c).ovl = (s.ch c).ovl ∧ (t.ch c).outQ = (s.ch c).outQ ∧ (t.ch c).lat = (s.ch c).lat ∧
        OnlyChannel c s t ∧ Answered s t .ok []) ∧
    (Ready s c → ¬ Within s.cfg.inqCap ((s.ch c).inA.length + 1) →
      ∃ t, exec (.push c a b) s = .next t ∧ FaultEntered s t (.ovfInput, c)) ∧
    (∀ cause, Unfaulted s → chanCheck s c = some cause →
      ∃ t, exec (.push c a b) s = .next t ∧ FaultEntered s t (cause, c))

/-- R61, R64: `PUSHN` appends all its samples, in order. -/
def Obligations.PushNAppendsAllSamplesInOrder : Prop :=
  ∀ (s : State) (c : Chan) (xs : List (F64 × F64)), Ready s c →
    Within s.cfg.inqCap ((s.ch c).inA.length + xs.length) →
    ∃ t, runAll (pushN c xs) s = .next t ∧
      (t.ch c).inA = (s.ch c).inA ++ xs.map Prod.fst ∧ (t.ch c).inB = (s.ch c).inB ++ xs.map Prod.snd ∧
      (t.ch c).ovl = (s.ch c).ovl ∧ (t.ch c).outQ = (s.ch c).outQ ∧ (t.ch c).lat = (s.ch c).lat ∧
      OnlyChannel c s t ∧ t.cfg = s.cfg ∧ t.input = s.input ∧
      t.responses = s.responses ++ List.replicate xs.length ⟨.ok, []⟩

/-- R65: `PROC` on a channel that passes its checks takes `BlockCount` turns of the block loop, with the block length
and gain it started with and the configuration's kernel and window, and changes nothing outside the channel; when the blocks would not all fit it raises
`OVF_OUTPUT` and processes none. -/
def Obligations.ProcTakesBlockCountTurns : Prop :=
  ∀ (s : State) (c : Chan), Ready s c →
    let L := s.blockLength
    let m := blockCount (s.ch c).inA.length L
    (Within s.cfg.outqCap ((s.ch c).outQ.length + m * L) →
      ∃ t, exec (.proc c) s = .next t ∧
        t.ch c = (processBlock (kernelOf s.cfg) (windowOf s.cfg) L s.eng.gain)^[m] (s.ch c) ∧
        OnlyChannel c s t ∧ Answered s t .ok []) ∧
    (¬ Within s.cfg.outqCap ((s.ch c).outQ.length + m * L) →
      ∃ t, exec (.proc c) s = .next t ∧ FaultEntered s t (.ovfOutput, c))

/-- R65, R66, R36: one turn of the loop, sample by sample. The oldest `L` samples of both queues are convolved; the sums
of the first half with the overlap buffer are appended to the output; the second half is the new overlap
buffer. -/
def Obligations.OneTurnConvolvesAndOverlapAdds : Prop :=
  ∀ (K : Kernel) (W : Window) (L : Nat) (g : F64) (x : ChannelState),
    L < x.inA.length → x.inA.length = x.inB.length → x.ovl.length = L →
    let r := convolve K W L g (x.inA.take L) (x.inB.take L)
    let y := processBlock K W L g x
    r.length = 2 * L ∧ y.inA = x.inA.drop L ∧ y.inB = x.inB.drop L ∧ y.lat = x.lat ∧
    y.outQ.length = x.outQ.length + L ∧ y.ovl.length = L ∧
    (∀ i, i < x.outQ.length → y.outQ[i]? = x.outQ[i]?) ∧
    (∀ i, i < L → y.outQ[x.outQ.length + i]? = some (fadd (r.getD i 0) (x.ovl.getD i 0))) ∧
    (∀ i, i < L → y.ovl[i]? = r[i + L]?)

/-- R73, R65: after a completed `PROC` both input queues hold the same number of samples, at most one block and at
least one if there was one, and they are what was left of the old ones; the output queue has grown at its tail by
whole blocks. -/
def Obligations.ProcLeavesAtMostOneBlockQueued : Prop :=
  ∀ (s t : State) (c : Chan), Ready s c → exec (.proc c) s = .next t → Unfaulted t →
    let L := s.blockLength
    let m := blockCount (s.ch c).inA.length L
    (t.ch c).inA = (s.ch c).inA.drop (m * L) ∧ (t.ch c).inB = (s.ch c).inB.drop (m * L) ∧
    (t.ch c).inA.length = (t.ch c).inB.length ∧ (t.ch c).inA.length ≤ L ∧
    (1 ≤ (s.ch c).inA.length → 1 ≤ (t.ch c).inA.length) ∧
    (t.ch c).outQ.length = (s.ch c).outQ.length + m * L ∧
    (t.ch c).outQ.take (s.ch c).outQ.length = (s.ch c).outQ ∧
    (t.ch c).ovl.length = L ∧ (t.ch c).lat = (s.ch c).lat

/-- R65 (derived there): `PROC` twice in a row is the same as once. -/
def Obligations.ProcTwiceIsProcOnce : Prop :=
  ∀ (s t : State) (c : Chan), Ready s c → exec (.proc c) s = .next t → Unfaulted t →
    ∃ u, exec (.proc c) t = .next u ∧ u.block = t.block ∧ Answered t u .ok []

/-- R69: the recursion, the closed forms, the level left, and that the loop of `PROC` runs exactly that often. -/
def Obligations.BlockCountIsTheNumberOfTurns : Prop :=
  ∀ n L : Nat, 2 ≤ L →
    (n ≤ L → blockCount n L = 0) ∧ (L < n → blockCount n L = 1 + blockCount (n - L) L) ∧
    blockCount 0 L = 0 ∧ (1 ≤ n → blockCount n L = (n - 1) / L ∧ (blockCount n L : ℤ) = ⌈(n : ℚ) / L⌉ - 1) ∧
    (n = 0 → n - L * blockCount n L = 0) ∧
    (1 ≤ n → 1 ≤ n - L * blockCount n L ∧ n - L * blockCount n L ≤ L) ∧
    (∀ (K : Kernel) (W : Window) (g : F64) (x : ChannelState), x.inA.length = n →
      processAvailable K W L g x = (processBlock K W L g)^[blockCount n L] x ∧
      (processAvailable K W L g x).inA.length = n - L * blockCount n L)

/-- R66: the overlap-add, sample by sample, and what it gives over a zero overlap buffer. The last clause rests on facts
of IEEE 754 from general knowledge (log 8); which NaN a NaN sample becomes is open (R95, U5; log 7). -/
def Obligations.OverlapAddSumsAndKeepsTheTail : Prop :=
  ∀ (L : Nat) (r ovl : List F64), r.length = 2 * L → ovl.length = L →
    (overlapAdd L r ovl).1.length = L ∧ (overlapAdd L r ovl).2.length = L ∧
    (∀ i, i < L → (overlapAdd L r ovl).1[i]? = some (fadd (r.getD i 0) (ovl.getD i 0))) ∧
    (∀ i, i < L → (overlapAdd L r ovl).2[i]? = r[i + L]?) ∧
    (ovl = List.replicate L 0 → ∀ i, i < L →
      (isNaN (r.getD i 0) = false →
        (overlapAdd L r ovl).1[i]? = some (if r.getD i 0 = 0x8000000000000000 then 0 else r.getD i 0)) ∧
      (isNaN (r.getD i 0) = true → ∃ v, (overlapAdd L r ovl).1[i]? = some v ∧ isNaN v = true))

/-- R67, R71, R119: `DRAIN` delivers exactly `n` samples, first as many `+0.0` as too few are queued, then the oldest
queued samples; it takes those from the queue, records the shortfall, and changes nothing else. A failed
`ChanCheck` raises that fault. -/
def Obligations.DrainDeliversZerosThenTheOldestSamples : Prop :=
  ∀ (s : State) (c : Chan) (n : Imm),
    (Ready s c →
      let q := (s.ch c).outQ.length
      ∃ t data, exec (.drain c n) s = .next t ∧ Answered s t .ok data ∧ data.length = n.toNat ∧
        (∀ i, i < n.toNat - q → data[i]? = some 0) ∧
        (∀ i, n.toNat - q ≤ i → i < n.toNat → data[i]? = (s.ch c).outQ[i - (n.toNat - q)]?) ∧
        (t.ch c).outQ = (s.ch c).outQ.drop n.toNat ∧ (t.ch c).lat = n.toNat - q ∧
        (t.ch c).inA = (s.ch c).inA ∧ (t.ch c).inB = (s.ch c).inB ∧ (t.ch c).ovl = (s.ch c).ovl ∧
        OnlyChannel c s t) ∧
    (∀ cause, Unfaulted s → chanCheck s c = some cause →
      ∃ t, exec (.drain c n) s = .next t ∧ FaultEntered s t (cause, c))

/-- R36, R42: as long as the output queue holds enough, two `DRAIN` commands deliver what one of the summed length
does, in the same order and leaving the same block; no sample is delivered twice. -/
def Obligations.SuccessiveDrainsDeliverInOrder : Prop :=
  ∀ (s t u v : State) (c : Chan) (n m k : Imm) (d₁ d₂ d₃ : List Word64), Ready s c →
    k.toNat = n.toNat + m.toNat → k.toNat ≤ (s.ch c).outQ.length →
    exec (.drain c n) s = .next t → Answered s t .ok d₁ → exec (.drain c m) t = .next u → Answered t u .ok d₂ →
    exec (.drain c k) s = .next v → Answered s v .ok d₃ →
    d₃ = d₁ ++ d₂ ∧ v.block = u.block

/-- R63: `ChanCheck(c)` is the first step of every channel-addressed command: the queue test comes first, then the
overlap test, and a failed one raises its fault and nothing else. -/
def Obligations.ChanCheckRaisesTheFirstBrokenInvariant : Prop :=
  ∀ (s : State) (c : Chan) (i : Instr), addressed i = some c → Unfaulted s →
    (¬ QueuesAgree s c → ∃ t, exec i s = .next t ∧ FaultEntered s t (.invQueue, c)) ∧
    (QueuesAgree s c → ¬ OverlapFits s c → ∃ t, exec i s = .next t ∧ FaultEntered s t (.invOverlap, c))

/-- R23: a channel-addressed command writes no other channel, no engine register but `fault`; and what it does is
decided by its own channel, the engine registers and the parameters alone, whichever channel it is. -/
def Obligations.ChannelCommandsAreConfinedToTheirChannel : Prop :=
  (∀ (s t : State) (i : Instr) (c : Chan), addressed i = some c → exec i s = .next t →
    (∀ d, d ≠ c → t.ch d = s.ch d) ∧ t.eng.blkExp = s.eng.blkExp ∧ t.eng.gain = s.eng.gain ∧
    t.cfg = s.cfg ∧ t.input = s.input ∧ (t.eng.fault = s.eng.fault ∨ ∃ cause, t.eng.fault = some (cause, c))) ∧
  (∀ (s s' t t' : State) (i : Instr) (c d : Chan), addressed i = some c →
    s'.ch d = s.ch c → s'.eng = s.eng → s'.cfg = s.cfg →
    exec i s = .next t → exec (readdress d i) s' = .next t' →
    t'.ch d = t.ch c ∧ t'.eng.fault.map Prod.fst = t.eng.fault.map Prod.fst ∧
    ∃ r, t.responses = s.responses ++ [r] ∧ t'.responses = s'.responses ++ [r])

/-- R23: two completed channel-addressed commands on different channels commute. -/
def Obligations.CommandsOnDifferentChannelsCommute : Prop :=
  ∀ (s t u t' u' : State) (i j : Instr) (c d : Chan), addressed i = some c → addressed j = some d → c ≠ d →
    exec i s = .next t → exec j t = .next u → Unfaulted u →
    exec j s = .next t' → exec i t' = .next u' → Unfaulted u' → u'.block = u.block

/-- R70: where `PROC` stands does not matter. `PUSH` as often as one likes and then `PROC` leaves the same block as
`PROC` after each `PUSH`, when neither run raises a fault. That NaN patterns are equal too rests on the model's reading that
the choice of NaN depends on the operation and its operands alone (log 7). -/
def Obligations.PlacementOfProcDoesNotMatter : Prop :=
  ∀ (s t u : State) (c : Chan) (xs : List (F64 × F64)), Ready s c → xs ≠ [] →
    runAll (pushN c xs ++ [.proc c]) s = .next t → Unfaulted t →
    runAll (xs.flatMap fun x => [.push c x.1 x.2, .proc c]) s = .next u → Unfaulted u →
    t.block = u.block

/-- R72 (b), (c), (d), R145: the latency recurrence. After callbacks from reset with a constant block length and no
fault, the latency is `max(0, r_k - Z_(k-1))`, the input level `r_k`, the output level `Z_k - r_k`, and the total
of injected zeros `Z_k` is at most `L`. -/
def Obligations.LatencyFollowsTheRecurrence : Prop :=
  ∀ (p : Config.Params) (c : Chan) (calls : List (List (F64 × F64))) (t : State), calls ≠ [] →
    (∀ x ∈ calls, x.length < 2 ^ 20) →
    runAll (calls.flatMap (callback c)) (State.init p) = .next t → Unfaulted t →
    let L := 2 ^ (p.defaultExp.val + 1)
    let totals := callbackTotals L (calls.map List.length)
    let r := levelAfter L totals.1
    (t.ch c).inA.length = r ∧ (t.ch c).inB.length = r ∧ (t.ch c).outQ.length + r = totals.2.2 ∧
    (t.ch c).lat = r - totals.2.1 ∧ totals.2.2 ≤ L

/-! ### The convolver and the arithmetic -/

/-- R81, R82: `Convolve` slot by slot. The blocks are padded with `+0.0`, every slot of the transforms is multiplied
alike and by the gain, left to right, and every sample of the inverse transform by the window. -/
def Obligations.ConvolveIsComputedSlotBySlot : Prop :=
  ∀ (K : Kernel) (W : Window) (L : Nat) (g : F64) (a b : List F64), a.length = L → b.length = L →
    let N := 2 * L
    let xa := zeroExtend L a
    let xb := zeroExtend L b
    let p := (List.range N).map fun i => fmul (fmul (K.fwd N xa i) (K.fwd N xb i)) g
    (xa.length = N ∧ xb.length = N) ∧
    (∀ i, i < L → xa[i]? = a[i]? ∧ xb[i]? = b[i]?) ∧ (∀ i, L ≤ i → i < N → xa[i]? = some 0 ∧ xb[i]? = some 0) ∧
    (convolve K W L g a b).length = N ∧
    ∀ i, i < N → (convolve K W L g a b)[i]? = some (fmul (K.inv N p i) (W N i))

/-- R96: with `K_ZERO` and `W_RANGE`, an all-zero block pair convolves to an all-zero result, for every legal block
length and every finite gain. -/
def Obligations.ZeroBlocksConvolveToZero : Prop :=
  ∀ (K : Kernel) (W : Window) (k : Nat) (g : F64) (a b : List F64), KZero K → WRange W → 1 ≤ k → k ≤ 13 →
    isFinite g = true → a.length = 2 ^ k → b.length = 2 ^ k →
    (∀ v ∈ a, isZero v = true) → (∀ v ∈ b, isZero v = true) →
    ∀ v ∈ convolve K W (2 ^ k) g a b, isZero v = true

/-- R98 (last sentences): `Convolve` is symmetric in its blocks, up to the choice of NaN. -/
def Obligations.ConvolveIsSymmetric : Prop :=
  ∀ (K : Kernel) (W : Window) (L : Nat) (g : F64) (a b : List F64),
    (∀ i, i < 2 * L →
      isNaN (fmul (K.fwd (2 * L) (zeroExtend L a) i) (K.fwd (2 * L) (zeroExtend L b) i)) = false) →
    convolve K W L g a b = convolve K W L g b a

/-- R99 (last sentence): with `W_ZERO` the first sample of a block's result is a zero whenever it was finite before
the window, so the first sample the block contributes to the output is the old overlap buffer's alone. -/
def Obligations.FirstSampleOfABlockIsTheOldTail : Prop :=
  ∀ (K : Kernel) (W : Window) (k : Nat) (g : F64) (a b ovl : List F64), WZero W → 1 ≤ k → k ≤ 13 →
    ovl.length = 2 ^ k → isFinite ((convolveRaw K (2 ^ k) g a b).getD 0 0) = true →
    let r := convolve K W (2 ^ k) g a b
    let out := (overlapAdd (2 ^ k) r ovl).1
    isZero (r.getD 0 0) = true ∧
    (isNaN (ovl.getD 0 0) = false → isZero (ovl.getD 0 0) = false → out[0]? = ovl[0]?) ∧
    (isZero (ovl.getD 0 0) = true → isZero (out.getD 0 0) = true)

/-- R10: the sum of two finite numbers is rounded once, to nearest, ties to even. -/
def Obligations.FaddRoundsOnceToNearestEven : Prop :=
  ∀ a b : F64, isFinite a = true → isFinite b = true → RoundsTo (toRat a + toRat b) (fadd a b)

/-- R10: the product of two finite numbers is rounded once, to nearest, ties to even. -/
def Obligations.FmulRoundsOnceToNearestEven : Prop :=
  ∀ a b : F64, isFinite a = true → isFinite b = true → RoundsTo (toRat a * toRat b) (fmul a b)

/-- R10: the quotient of a finite number and a finite number that is not zero is rounded once, to nearest, ties to
even. -/
def Obligations.FdivRoundsOnceToNearestEven : Prop :=
  ∀ a b : F64, isFinite a = true → isFinite b = true → isZero b = false → RoundsTo (toRat a / toRat b) (fdiv a b)

/-- R95: NaNs, infinities and signed zeros. -/
def Obligations.SpecialValuesFollowIeee : Prop :=
  ∀ a b : F64,
    (isNaN a = true ∨ isNaN b = true →
      isNaN (fadd a b) = true ∧ isNaN (fmul a b) = true ∧ isNaN (fdiv a b) = true) ∧
    (isZero a = true → isInf b = true → isNaN (fmul a b) = true ∧ isNaN (fmul b a) = true) ∧
    (isInf a = true → isInf b = true → fSign a ≠ fSign b → isNaN (fadd a b) = true) ∧
    (isInf a = true → isFinite b = true → fadd a b = a ∧ fadd b a = a) ∧
    (isZero a = true → isFinite b = true →
      isZero (fmul a b) = true ∧ fSign (fmul a b) = (fSign a != fSign b) ∧
      isZero (fmul b a) = true ∧ fSign (fmul b a) = (fSign a != fSign b)) ∧
    fadd 0x8000000000000000 0x0000000000000000 = 0x0000000000000000

/-- R89: the two sign conventions of the kernel give outputs of step 4 that are mirror images of each other, in ideal
arithmetic. -/
def Obligations.KernelSignsGiveMirrorImages : Prop :=
  ∀ (ρ : ℝ) (N : Nat) (p y y' : Nat → ℝ), kernelLength N → IdealInv 1 ρ N p y → IdealInv (-1) ρ N p y' →
    ∀ j, j < N → y' j = y ((N - j) % N)

/-- R90: in ideal arithmetic the inverse transform of the forward transform is `KRHO(N)` times the input, for either
sign convention. -/
def Obligations.IdealKernelRoundTripScales : Prop :=
  ∀ (σ ρ : ℝ) (N : Nat) (x X y : Nat → ℝ), IsKSign σ → kernelLength N →
    IdealFwd σ N x X → IdealInv σ ρ N X y → ∀ j, j < N → y j = ρ * x j

/-- R98: the ideal convolver at `L = 2`, slot by slot; it is not the linear convolution. -/
def Obligations.FourPointConvolverInIdealArithmetic : Prop :=
  ∀ (σ ρ g a0 a1 b0 b1 : ℝ) (ta tb y : Nat → ℝ), IsKSign σ →
    IdealFwd σ 4 (fun j => if j = 0 then a0 else if j = 1 then a1 else 0) ta →
    IdealFwd σ 4 (fun j => if j = 0 then b0 else if j = 1 then b1 else 0) tb →
    IdealInv σ ρ 4 (fun i => ta i * tb i * g) y →
    (ta 0 = a0 + a1 ∧ ta 1 = a0 - a1 ∧ ta 2 = a0 ∧ ta 3 = σ * a1) ∧
    y 0 = ρ * g / 2 * (2 * a0 * b0 + a1 * b1) ∧
    y 1 = ρ * g / 2 * (a0 * b1 + a1 * b0 + σ * a1 * b1) ∧
    y 2 = ρ * g / 2 * (a1 * b1) ∧
    y 3 = ρ * g / 2 * (a0 * b1 + a1 * b0 - σ * a1 * b1)

/-! ### Configuration, status, faults -/

/-- R100: `SETBLK` with a power of two from 2 to 8192 sets the block length, zeroes both overlap buffers at the new
length and changes nothing else; any other operand is a configuration error and changes nothing. -/
def Obligations.SetblkSetsExactlyTheLegalLengths : Prop :=
  ∀ (s : State) (len : Imm), Unfaulted s →
    ((∃ k, 1 ≤ k ∧ k ≤ 13 ∧ len.toNat = 2 ^ k) →
      ∃ t, exec (.setblk len) s = .next t ∧ Reconfigured s t len.toNat) ∧
    ((¬ ∃ k, 1 ≤ k ∧ k ≤ 13 ∧ len.toNat = 2 ^ k) →
      ∃ t, exec (.setblk len) s = .next t ∧ Rejected s t .cfgErr)

/-- R101: `SETEXP e` with `e` in 1 to 13 does exactly what `SETBLK 2^e` does; any other operand is a configuration
error and changes nothing. -/
def Obligations.SetexpIsSetblkOfThePowerOfTwo : Prop :=
  ∀ (s : State) (e : Imm), Unfaulted s →
    (1 ≤ e.toNat → e.toNat ≤ 13 →
      (∃ t, exec (.setexp e) s = .next t ∧ Reconfigured s t (2 ^ e.toNat)) ∧
      exec (.setexp e) s = exec (.setblk (BitVec.ofNat 20 (2 ^ e.toNat))) s) ∧
    (e.toNat < 1 ∨ 13 < e.toNat → ∃ t, exec (.setexp e) s = .next t ∧ Rejected s t .cfgErr)

/-- R102, R137: `RESET` zeroes both overlap buffers and changes nothing else, exactly as `SETBLK` of the present block
length does. -/
def Obligations.SoftResetZeroesTheOverlapBuffersOnly : Prop :=
  ∀ s : State, Unfaulted s →
    (∃ t, exec .reset s = .next t ∧ Reconfigured s t s.blockLength) ∧
    exec .reset s = exec (.setblk (BitVec.ofNat 20 s.blockLength)) s

/-- R103: `SETBLK x`, `SETEXP x` and `RESET` done twice in a row leave the block as doing them once does, with the same
answer; a `SETBLK` of the present block length still zeroes both overlap buffers. -/
def Obligations.ReconfigurationIsIdempotent : Prop :=
  (∀ (s t u : State) (i : Instr), ((∃ x, i = .setblk x) ∨ (∃ x, i = .setexp x) ∨ i = .reset) →
    exec i s = .next t → exec i t = .next u →
    u.block = t.block ∧ ∃ st, t.responses = s.responses ++ [⟨st, []⟩] ∧ u.responses = t.responses ++ [⟨st, []⟩]) ∧
  (∀ s : State, Unfaulted s →
    ∃ t, exec (.setblk (BitVec.ofNat 20 s.blockLength)) s = .next t ∧ t.blockLength = s.blockLength ∧
      ∀ c, (t.ch c).ovl = zeros s.blockLength)

/-- R104 (a), (b), (c): a change of block length keeps the queues and discards the overlap tails: two states that differ
in their overlap buffers alone come to the same block. -/
def Obligations.SetblkDiscardsTheOverlapTails : Prop :=
  ∀ (s s' t t' : State) (len : Imm), Unfaulted s → (∃ k, 1 ≤ k ∧ k ≤ 13 ∧ len.toNat = 2 ^ k) →
    s'.eng = s.eng → (∀ c, ∃ o, s'.ch c = { s.ch c with ovl := o }) →
    exec (.setblk len) s = .next t → exec (.setblk len) s' = .next t' →
    t'.block = t.block ∧ ∀ c, (t.ch c).inA = (s.ch c).inA ∧ (t.ch c).inB = (s.ch c).inB ∧ (t.ch c).outQ = (s.ch c).outQ

/-- R109: `SETGAIN` with a finite operand sets `gain` to the operand divided by `1000000.0` and changes nothing else; a
non-finite operand is a configuration error and changes nothing. -/
def Obligations.SetgainDividesFiniteInput : Prop :=
  ∀ (s : State) (p : F64), Unfaulted s →
    (isFinite p = true →
      ∃ t, exec (.setgain p) s = .next t ∧ t.eng = { s.eng with gain := fdiv p 0x412E848000000000 } ∧
        (∀ c, t.ch c = s.ch c) ∧ Answered s t .ok []) ∧
    (isFinite p = false → ∃ t, exec (.setgain p) s = .next t ∧ Rejected s t .cfgErr)

/-- R110: values of the gain map; a multiplication by the number nearest `1e-6` gives others for `10.0` and `100.0`. -/
def Obligations.GainMapHasTheListedValues : Prop :=
  fdiv 0x0000000000000000 0x412E848000000000 = 0x0000000000000000 ∧
  fdiv 0x4024000000000000 0x412E848000000000 = 0x3EE4F8B588E368F1 ∧
  fdiv 0x4059000000000000 0x412E848000000000 = 0x3F1A36E2EB1C432D ∧
  fdiv 0x412E848000000000 0x412E848000000000 = 0x3FF0000000000000 ∧
  fmul 0x4024000000000000 0x3EB0C6F7A0B5ED8D ≠ 0x3EE4F8B588E368F1 ∧
  fmul 0x4059000000000000 0x3EB0C6F7A0B5ED8D ≠ 0x3F1A36E2EB1C432D

/-- R109, R15: the gain map takes every finite number to a finite number of the same sign, no larger. -/
def Obligations.GainMapKeepsFiniteInputFinite : Prop :=
  ∀ p : F64, isFinite p = true →
    isFinite (fdiv p 0x412E848000000000) = true ∧ fSign (fdiv p 0x412E848000000000) = fSign p ∧
    |toRat (fdiv p 0x412E848000000000)| ≤ |toRat p|

/-- R27, R113, R28 to R33: every register reads as its row says, in every state, a faulted one too, and reading changes
nothing but the response port. -/
def Obligations.RdcsrReadsTheRegisterTable : Prop :=
  ∀ s : State,
    Reads s .c0 0x00 (BitVec.ofNat 64 s.blockLength) ∧ Reads s .c0 0x01 s.eng.gain ∧
    Reads s .c0 0x02 (faultWord s.eng.fault) ∧ Reads s .c0 0x03 2 ∧ Reads s .c0 0x04 8192 ∧
    (s.cfg.inqCap = none → Reads s .c0 0x05 0xFFFFFFFFFFFFFFFF) ∧
    (∀ k, s.cfg.inqCap = some k → k < 2 ^ 64 → Reads s .c0 0x05 (BitVec.ofNat 64 k)) ∧
    (s.cfg.outqCap = none → Reads s .c0 0x06 0xFFFFFFFFFFFFFFFF) ∧
    (∀ k, s.cfg.outqCap = some k → k < 2 ^ 64 → Reads s .c0 0x06 (BitVec.ofNat 64 k)) ∧
    ∀ c,
      ((s.ch c).lat < 2 ^ 64 → Reads s c 0x10 (BitVec.ofNat 64 (s.ch c).lat)) ∧
      ((s.ch c).inA.length < 2 ^ 64 → Reads s c 0x11 (BitVec.ofNat 64 (s.ch c).inA.length)) ∧
      ((s.ch c).inB.length < 2 ^ 64 → Reads s c 0x12 (BitVec.ofNat 64 (s.ch c).inB.length)) ∧
      ((s.ch c).outQ.length < 2 ^ 64 → Reads s c 0x13 (BitVec.ofNat 64 (s.ch c).outQ.length)) ∧
      ((s.ch c).ovl.length < 2 ^ 64 → Reads s c 0x14 (BitVec.ofNat 64 (s.ch c).ovl.length))

/-- R113: every well-formed `RDCSR` completes, in every state, with one word; one that is not `CsrLegal` is answered
`ST_ILLEGAL` and changes nothing (R54 step 2; log 14). -/
def Obligations.RdcsrCompletesExactlyWhenLegal : Prop :=
  ∀ (s : State) (c : Chan) (csr : Imm),
    (csrLegal csr c = true → ∃ w, Reads s c csr w) ∧
    (csrLegal csr c = false → ∃ t, exec (.rdcsr c csr) s = .next t ∧ Rejected s t .illegal)

/-- R30, R16, R121: the layout of the `FAULT` register, and that once non-zero it does not change until hardware
reset. -/
def Obligations.FaultRegisterHoldsCauseAndChannel : Prop :=
  (∀ s : State, s.eng.fault = none → Reads s .c0 0x02 0) ∧
  (∀ (s : State) (cause : Cause) (c : Chan), s.eng.fault = some (cause, c) →
    ∃ w : Word64, Reads s .c0 0x02 w ∧ w ≠ 0 ∧
      (w.extractLsb' 0 8).toNat =
        (match cause with | .invQueue => 1 | .invOverlap => 2 | .ovfInput => 3 | .ovfOutput => 4) ∧
      (w.extractLsb' 8 4).toNat = (match c with | .c0 => 0 | .c1 => 1) ∧ w.extractLsb' 12 52 = 0) ∧
  (∀ (s t : State) (f : Cause × Chan), s.eng.fault = some f → (∀ rest, s.input ≠ .hardwareReset :: rest) →
    step s = .next t → t.eng.fault = some f)

/-- R124: in the faulted state every command but `RDCSR` is answered `ST_FAULT`, without data, and changes no
state. -/
def Obligations.FaultedBlockRefusesEveryOtherCommand : Prop :=
  ∀ (s : State) (f : Cause × Chan) (i : Instr), s.eng.fault = some f → (∀ c csr, i ≠ .rdcsr c csr) →
    ∃ t, exec i s = .next t ∧ Rejected s t .fault

/-- R125, R124: nothing but hardware reset changes a faulted block, whatever the host presents. -/
def Obligations.FaultedBlockIsFrozenUntilReset : Prop :=
  ∀ (s t : State) (f : Cause × Chan), s.eng.fault = some f → (∀ rest, s.input ≠ .hardwareReset :: rest) →
    step s = .next t → t.block = s.block

/-- R22: which command writes which state. Whatever differs after a command, the command is one the table marks for
it. -/
def Obligations.OnlyTheMarkedCommandsWriteEachState : Prop :=
  ∀ (s t : State) (i : Instr), exec i s = .next t →
    (t.blockLength ≠ s.blockLength → (∃ len, i = .setblk len) ∨ ∃ e, i = .setexp e) ∧
    (t.eng.gain ≠ s.eng.gain → ∃ p, i = .setgain p) ∧
    (t.eng.fault ≠ s.eng.fault →
      s.eng.fault = none ∧ ((∃ c a b, i = .push c a b) ∨ (∃ c, i = .proc c) ∨ ∃ c n, i = .drain c n)) ∧
    ∀ c,
      ((t.ch c).inA ≠ (s.ch c).inA ∨ (t.ch c).inB ≠ (s.ch c).inB → (∃ a b, i = .push c a b) ∨ i = .proc c) ∧
      ((t.ch c).ovl ≠ (s.ch c).ovl →
        i = .proc c ∨ (∃ len, i = .setblk len) ∨ (∃ e, i = .setexp e) ∨ i = .reset) ∧
      ((t.ch c).outQ ≠ (s.ch c).outQ → i = .proc c ∨ ∃ n, i = .drain c n) ∧
      ((t.ch c).lat ≠ (s.ch c).lat → ∃ n, i = .drain c n)

/-! ### Serialised responses and the configuration -/

/-- R52, R39: a serialised response is the response header, then the data words in order, each least significant byte
first. That the header's own bytes have that order too is the model's reading (log 18). -/
def Obligations.ResponseBytesAreHeaderThenData : Prop :=
  ∀ r : Response,
    r.toBytes.length = 4 + 8 * r.data.length ∧ natOfBytes (r.toBytes.take 4) = r.header.toNat ∧
    ∀ (k : Nat) (w : Word64), r.data[k]? = some w → natOfBytes ((r.toBytes.drop (4 + 8 * k)).take 8) = w.toNat

/-- R5, R86, R93: kernel and window are fields of the configuration. Whatever the kernel, the window and the state,
there is a configuration, with the same other parameters, under which `PROC` computes with that kernel and that window.
That the fields are tables of listed results is the model's choice (logs 5 and 6). -/
def Obligations.EveryKernelAndWindowCanBeConfigured : Prop :=
  ∀ (K : Kernel) (W : Window) (s : State) (c : Chan), ∃ (kernelTable : KernelTable) (winTable : List WindowRow),
    let s' := { s with cfg := { s.cfg with kernelTable := kernelTable, winTable := winTable } }
    exec (.proc c) s' = procWith K W c s'
end

