-- ==== Sys2Proof/Laws/State.lean ====
section
/-! SUPPORT. One lemma per field per update of the state, true by unfolding, so that no proof unfolds a record
update. -/

namespace Sys2Proof.Machine

/-! ### Channels of a block -/

@[simp] theorem BlockState.setCh_eng (b : BlockState) (c : Chan) (x : ChannelState) : (b.setCh c x).eng = b.eng := by
  cases c <;> rfl
@[simp] theorem BlockState.setCh_ch (b : BlockState) (c d : Chan) (x : ChannelState) :
    (b.setCh c x).ch d = if d = c then x else b.ch d := by
  cases c <;> cases d <;> rfl

/-- Two blocks are equal when their engine and both channels are. -/
theorem BlockState.ext_ch {b b' : BlockState} (he : b.eng = b'.eng) (hc : ∀ c, b.ch c = b'.ch c) : b = b' := by
  have h0 := hc .c0
  have h1 := hc .c1
  cases b
  cases b'
  simp_all [BlockState.ch]

/-- Two states are equal when the engine, both channels, the parameters and both ports are. -/
theorem State.ext_ch {s t : State} (he : s.eng = t.eng) (hc : ∀ c, s.ch c = t.ch c) (hp : s.cfg = t.cfg)
    (hi : s.input = t.input) (hr : s.responses = t.responses) : s = t := by
  have hb : s.block = t.block := BlockState.ext_ch he hc
  cases s
  cases t
  simp_all

/-! ### `setCh` -/

@[simp] theorem State.setCh_eng (s : State) (c : Chan) (x : ChannelState) : (s.setCh c x).eng = s.eng := by
  simp [State.setCh, State.eng]
@[simp] theorem State.setCh_ch (s : State) (c d : Chan) (x : ChannelState) :
    (s.setCh c x).ch d = if d = c then x else s.ch d := by
  simp [State.setCh, State.ch]
@[simp] theorem State.setCh_blockLength (s : State) (c : Chan) (x : ChannelState) :
    (s.setCh c x).blockLength = s.blockLength := by
  simp [State.blockLength]
@[simp] theorem State.setCh_cfg (s : State) (c : Chan) (x : ChannelState) : (s.setCh c x).cfg = s.cfg := rfl
@[simp] theorem State.setCh_input (s : State) (c : Chan) (x : ChannelState) : (s.setCh c x).input = s.input := rfl
@[simp] theorem State.setCh_responses (s : State) (c : Chan) (x : ChannelState) :
    (s.setCh c x).responses = s.responses := rfl

/-! ### `setFault` -/

@[simp] theorem State.setFault_eng (s : State) (f : Option (Cause × Chan)) :
    (s.setFault f).eng = { s.eng with fault := f } := rfl
@[simp] theorem State.setFault_ch (s : State) (f : Option (Cause × Chan)) (c : Chan) :
    (s.setFault f).ch c = s.ch c := by
  cases c <;> rfl
@[simp] theorem State.setFault_blockLength (s : State) (f : Option (Cause × Chan)) :
    (s.setFault f).blockLength = s.blockLength := rfl
@[simp] theorem State.setFault_cfg (s : State) (f : Option (Cause × Chan)) : (s.setFault f).cfg = s.cfg := rfl
@[simp] theorem State.setFault_input (s : State) (f : Option (Cause × Chan)) : (s.setFault f).input = s.input := rfl
@[simp] theorem State.setFault_responses (s : State) (f : Option (Cause × Chan)) :
    (s.setFault f).responses = s.responses := rfl

/-! ### `setGain` -/

@[simp] theorem State.setGain_eng (s : State) (g : F64) : (s.setGain g).eng = { s.eng with gain := g } := rfl
@[simp] theorem State.setGain_ch (s : State) (g : F64) (c : Chan) : (s.setGain g).ch c = s.ch c := by
  cases c <;> rfl
@[simp] theorem State.setGain_blockLength (s : State) (g : F64) : (s.setGain g).blockLength = s.blockLength := rfl
@[simp] theorem State.setGain_cfg (s : State) (g : F64) : (s.setGain g).cfg = s.cfg := rfl
@[simp] theorem State.setGain_input (s : State) (g : F64) : (s.setGain g).input = s.input := rfl
@[simp] theorem State.setGain_responses (s : State) (g : F64) : (s.setGain g).responses = s.responses := rfl

/-! ### `setExp` -/

@[simp] theorem State.setExp_eng (s : State) (k : Fin 13) : (s.setExp k).eng = { s.eng with blkExp := k } := rfl
@[simp] theorem State.setExp_ch (s : State) (k : Fin 13) (c : Chan) : (s.setExp k).ch c = s.ch c := by
  cases c <;> rfl
@[simp] theorem State.setExp_blockLength (s : State) (k : Fin 13) :
    (s.setExp k).blockLength = 2 ^ (k.val + 1) := rfl
@[simp] theorem State.setExp_cfg (s : State) (k : Fin 13) : (s.setExp k).cfg = s.cfg := rfl
@[simp] theorem State.setExp_input (s : State) (k : Fin 13) : (s.setExp k).input = s.input := rfl
@[simp] theorem State.setExp_responses (s : State) (k : Fin 13) : (s.setExp k).responses = s.responses := rfl

/-! ### `zeroOverlaps` -/

@[simp] theorem State.zeroOverlaps_eng (s : State) : s.zeroOverlaps.eng = s.eng := rfl
@[simp] theorem State.zeroOverlaps_ch (s : State) (c : Chan) :
    s.zeroOverlaps.ch c = (s.ch c).zeroOvl s.blockLength := by
  cases c <;> rfl
@[simp] theorem State.zeroOverlaps_blockLength (s : State) : s.zeroOverlaps.blockLength = s.blockLength := rfl
@[simp] theorem State.zeroOverlaps_cfg (s : State) : s.zeroOverlaps.cfg = s.cfg := rfl
@[simp] theorem State.zeroOverlaps_input (s : State) : s.zeroOverlaps.input = s.input := rfl
@[simp] theorem State.zeroOverlaps_responses (s : State) : s.zeroOverlaps.responses = s.responses := rfl

@[simp] theorem ChannelState.zeroOvl_ovl (x : ChannelState) (n : Nat) : (x.zeroOvl n).ovl = zeros n := rfl
@[simp] theorem ChannelState.zeroOvl_inA (x : ChannelState) (n : Nat) : (x.zeroOvl n).inA = x.inA := rfl
@[simp] theorem ChannelState.zeroOvl_inB (x : ChannelState) (n : Nat) : (x.zeroOvl n).inB = x.inB := rfl
@[simp] theorem ChannelState.zeroOvl_outQ (x : ChannelState) (n : Nat) : (x.zeroOvl n).outQ = x.outQ := rfl
@[simp] theorem ChannelState.zeroOvl_lat (x : ChannelState) (n : Nat) : (x.zeroOvl n).lat = x.lat := rfl

/-! ### `reconfigure` -/

@[simp] theorem State.reconfigure_eng (s : State) (k : Fin 13) :
    (s.reconfigure k).eng = { s.eng with blkExp := k } := rfl
@[simp] theorem State.reconfigure_ch (s : State) (k : Fin 13) (c : Chan) :
    (s.reconfigure k).ch c = (s.ch c).zeroOvl (2 ^ (k.val + 1)) := by
  simp [State.reconfigure]
@[simp] theorem State.reconfigure_blockLength (s : State) (k : Fin 13) :
    (s.reconfigure k).blockLength = 2 ^ (k.val + 1) := rfl
@[simp] theorem State.reconfigure_cfg (s : State) (k : Fin 13) : (s.reconfigure k).cfg = s.cfg := rfl
@[simp] theorem State.reconfigure_input (s : State) (k : Fin 13) : (s.reconfigure k).input = s.input := rfl
@[simp] theorem State.reconfigure_responses (s : State) (k : Fin 13) :
    (s.reconfigure k).responses = s.responses := rfl

/-! ### `answer` -/

@[simp] theorem State.answer_block (s : State) (st : Status) (d : List Word64) : (s.answer st d).block = s.block := rfl
@[simp] theorem State.answer_eng (s : State) (st : Status) (d : List Word64) : (s.answer st d).eng = s.eng := rfl
@[simp] theorem State.answer_ch (s : State) (st : Status) (d : List Word64) (c : Chan) :
    (s.answer st d).ch c = s.ch c := rfl
@[simp] theorem State.answer_blockLength (s : State) (st : Status) (d : List Word64) :
    (s.answer st d).blockLength = s.blockLength := rfl
@[simp] theorem State.answer_cfg (s : State) (st : Status) (d : List Word64) : (s.answer st d).cfg = s.cfg := rfl
@[simp] theorem State.answer_input (s : State) (st : Status) (d : List Word64) : (s.answer st d).input = s.input := rfl
@[simp] theorem State.answer_responses (s : State) (st : Status) (d : List Word64) :
    (s.answer st d).responses = s.responses ++ [⟨st, d⟩] := rfl

/-! ### `push` and `drain` on a channel -/

@[simp] theorem ChannelState.push_inA (x : ChannelState) (a b : F64) : (x.push a b).inA = x.inA ++ [a] := rfl
@[simp] theorem ChannelState.push_inB (x : ChannelState) (a b : F64) : (x.push a b).inB = x.inB ++ [b] := rfl
@[simp] theorem ChannelState.push_ovl (x : ChannelState) (a b : F64) : (x.push a b).ovl = x.ovl := rfl
@[simp] theorem ChannelState.push_outQ (x : ChannelState) (a b : F64) : (x.push a b).outQ = x.outQ := rfl
@[simp] theorem ChannelState.push_lat (x : ChannelState) (a b : F64) : (x.push a b).lat = x.lat := rfl

@[simp] theorem ChannelState.drain_inA (x : ChannelState) (n : Nat) : (x.drain n).inA = x.inA := rfl
@[simp] theorem ChannelState.drain_inB (x : ChannelState) (n : Nat) : (x.drain n).inB = x.inB := rfl
@[simp] theorem ChannelState.drain_ovl (x : ChannelState) (n : Nat) : (x.drain n).ovl = x.ovl := rfl
@[simp] theorem ChannelState.drain_outQ (x : ChannelState) (n : Nat) :
    (x.drain n).outQ = x.outQ.drop (x.ready n) := rfl
@[simp] theorem ChannelState.drain_lat (x : ChannelState) (n : Nat) : (x.drain n).lat = x.shortfall n := rfl

/-! ### Reset -/

@[simp] theorem State.init_block (p : Config.Params) : (State.init p).block = BlockState.init p := rfl
@[simp] theorem State.init_cfg (p : Config.Params) : (State.init p).cfg = p := rfl
@[simp] theorem State.init_input (p : Config.Params) : (State.init p).input = [] := rfl
@[simp] theorem State.init_responses (p : Config.Params) : (State.init p).responses = [] := rfl
@[simp] theorem State.init_blockLength (p : Config.Params) :
    (State.init p).blockLength = 2 ^ (p.defaultExp.val + 1) := rfl
@[simp] theorem State.init_eng (p : Config.Params) : (State.init p).eng = ⟨p.defaultExp, Config.resetGain, none⟩ := rfl
@[simp] theorem State.init_ch (p : Config.Params) (c : Chan) :
    (State.init p).ch c = ChannelState.init (2 ^ (p.defaultExp.val + 1)) := by
  cases c <;> rfl

@[simp] theorem ChannelState.init_inA (n : Nat) : (ChannelState.init n).inA = [] := rfl
@[simp] theorem ChannelState.init_inB (n : Nat) : (ChannelState.init n).inB = [] := rfl
@[simp] theorem ChannelState.init_ovl (n : Nat) : (ChannelState.init n).ovl = zeros n := rfl
@[simp] theorem ChannelState.init_outQ (n : Nat) : (ChannelState.init n).outQ = [] := rfl
@[simp] theorem ChannelState.init_lat (n : Nat) : (ChannelState.init n).lat = 0 := rfl

@[simp] theorem length_zeros (n : Nat) : (zeros n).length = n := by simp [zeros]

end Sys2Proof.Machine
end

