-- ==== Sys2Proof/Laws/Convolver.lean ====
section
/-! SUPPORT. Lengths through the convolver and the block loop, and how the loop runs. -/

namespace Sys2Proof.Machine

open Config (Kernel Window)

/-! ### Lengths -/

@[simp] theorem length_fwdT (K : Kernel) (N : Nat) (x : List F64) : (K.fwdT N x).length = N := by
  simp [Kernel.fwdT]

@[simp] theorem length_invT (K : Kernel) (N : Nat) (x : List F64) : (K.invT N x).length = N := by
  simp [Kernel.invT]

@[simp] theorem length_slotProduct (g : F64) (ta tb : List F64) :
    (slotProduct g ta tb).length = min ta.length tb.length := by
  simp [slotProduct]

@[simp] theorem length_convolveRaw (K : Kernel) (L : Nat) (g : F64) (a b : List F64) :
    (convolveRaw K L g a b).length = 2 * L := by
  simp [convolveRaw]

@[simp] theorem length_convolve (K : Kernel) (W : Window) (L : Nat) (g : F64) (a b : List F64) :
    (convolve K W L g a b).length = 2 * L := by
  simp [convolve, applyWindow]

theorem length_overlapAdd_out {L : Nat} {r ovl : List F64} (hr : r.length = 2 * L) (ho : ovl.length = L) :
    (overlapAdd L r ovl).1.length = L := by
  simp [overlapAdd, hr, ho]
  omega

theorem length_overlapAdd_tail {L : Nat} {r ovl : List F64} (hr : r.length = 2 * L) :
    (overlapAdd L r ovl).2.length = L := by
  simp [overlapAdd, hr]
  omega

/-! ### One turn of the loop -/

section
variable (K : Kernel) (W : Window) (L : Nat) (g : F64) (x : ChannelState)

@[simp] theorem processBlock_inA : (processBlock K W L g x).inA = x.inA.drop L := rfl
@[simp] theorem processBlock_inB : (processBlock K W L g x).inB = x.inB.drop L := rfl
@[simp] theorem processBlock_lat : (processBlock K W L g x).lat = x.lat := rfl
theorem processBlock_outQ : (processBlock K W L g x).outQ =
    x.outQ ++ (overlapAdd L (convolve K W L g (x.inA.take L) (x.inB.take L)) x.ovl).1 := rfl
theorem processBlock_ovl : (processBlock K W L g x).ovl =
    (overlapAdd L (convolve K W L g (x.inA.take L) (x.inB.take L)) x.ovl).2 := rfl

@[simp] theorem length_processBlock_ovl : (processBlock K W L g x).ovl.length = L := by
  rw [processBlock_ovl]
  exact length_overlapAdd_tail (length_convolve ..)

theorem length_processBlock_outQ (h : x.ovl.length = L) :
    (processBlock K W L g x).outQ.length = x.outQ.length + L := by
  rw [processBlock_outQ, List.length_append, length_overlapAdd_out (length_convolve ..) h]

end

/-! ### `BlockCount` (R69) -/

theorem blockCount_of_le {n L : Nat} (h : n ≤ L) : blockCount n L = 0 := by
  unfold blockCount
  rcases Nat.eq_zero_or_pos L with rfl | hL
  · simp
  · exact Nat.div_eq_of_lt (by omega)

theorem blockCount_of_lt {n L : Nat} (hL : 0 < L) (h : L < n) : blockCount n L = blockCount (n - L) L + 1 := by
  have : n - 1 = (n - L - 1) + L := by omega
  unfold blockCount
  rw [this, Nat.add_div_right _ hL]

/-! ### The loop -/

section
variable (K : Kernel) (W : Window) {L : Nat} (g : F64)

theorem processBlocks_of_le (fuel : Nat) {x : ChannelState} (h : x.inA.length ≤ L) :
    processBlocks K W L g fuel x = x := by
  cases fuel with
  | zero => rfl
  | succ n => rw [processBlocks, if_neg (by omega)]

/-- With enough fuel the loop runs exactly `BlockCount` times. -/
theorem processBlocks_eq_iterate (hL : 0 < L) (fuel : Nat) (x : ChannelState)
    (h : blockCount x.inA.length L ≤ fuel) :
    processBlocks K W L g fuel x = (processBlock K W L g)^[blockCount x.inA.length L] x := by
  induction fuel generalizing x with
  | zero =>
    have h0 : blockCount x.inA.length L = 0 := by omega
    rw [h0]
    rfl
  | succ n ih =>
    by_cases hlt : L < x.inA.length
    · have hc := blockCount_of_lt hL hlt
      have hlen : (processBlock K W L g x).inA.length = x.inA.length - L := by simp
      rw [processBlocks, if_pos hlt, ih _ (by rw [hlen]; omega), hlen, hc, Function.iterate_succ_apply]
    · rw [processBlocks_of_le K W g _ (by omega), blockCount_of_le (by omega)]
      rfl

theorem blockCount_le (n : Nat) : blockCount n L ≤ n :=
  (Nat.div_le_self _ _).trans (Nat.sub_le _ _)

/-- `PROC` runs the loop exactly `BlockCount` times (R69). -/
theorem processAvailable_eq_iterate (hL : 0 < L) (x : ChannelState) :
    processAvailable K W L g x = (processBlock K W L g)^[blockCount x.inA.length L] x :=
  processBlocks_eq_iterate K W g hL _ x (blockCount_le _)

end

end Sys2Proof.Machine
end

