-- ==== Sys2Proof/Laws/Decode.lean ====
section
/-! SUPPORT. The fields of packets and headers, and what it takes to match a row of the opcode map. -/

namespace Sys2Proof

/-! ### Fields -/

@[simp] theorem header_mkPacket (h : Header) (a b : Word64) : (mkPacket h a b).header = h := by
  unfold Packet.header mkPacket
  rw [BitVec.extractLsb'_append_eq_of_le (by omega), BitVec.extractLsb'_append_eq_of_le (by omega)]
  exact BitVec.extractLsb'_eq_self

@[simp] theorem opa_mkPacket (h : Header) (a b : Word64) : (mkPacket h a b).opa = a := by
  unfold Packet.opa mkPacket
  rw [BitVec.extractLsb'_append_eq_of_le (by omega), BitVec.extractLsb'_append_eq_of_add_le (by omega)]
  exact BitVec.extractLsb'_eq_self

@[simp] theorem opb_mkPacket (h : Header) (a b : Word64) : (mkPacket h a b).opb = b := by
  unfold Packet.opb mkPacket
  rw [BitVec.extractLsb'_append_eq_of_add_le (by omega)]
  exact BitVec.extractLsb'_eq_self

@[simp] theorem op_mkHeader (o : BitVec 8) (c : BitVec 4) (i : Imm) : (mkHeader o c i).op = o := by
  unfold Header.op mkHeader
  rw [BitVec.extractLsb'_append_eq_of_le (by omega), BitVec.extractLsb'_append_eq_of_le (by omega)]
  exact BitVec.extractLsb'_eq_self

@[simp] theorem ch_mkHeader (o : BitVec 8) (c : BitVec 4) (i : Imm) : (mkHeader o c i).ch = c := by
  unfold Header.ch mkHeader
  rw [BitVec.extractLsb'_append_eq_of_le (by omega), BitVec.extractLsb'_append_eq_of_add_le (by omega)]
  exact BitVec.extractLsb'_eq_self

@[simp] theorem imm_mkHeader (o : BitVec 8) (c : BitVec 4) (i : Imm) : (mkHeader o c i).imm = i := by
  unfold Header.imm mkHeader
  rw [BitVec.extractLsb'_append_eq_of_add_le (by omega)]
  exact BitVec.extractLsb'_eq_self

/-- A header is its three fields. -/
theorem mkHeader_fields (h : Header) : mkHeader h.op h.ch h.imm = h := by
  apply BitVec.eq_of_getLsbD_eq
  intro i hi
  simp only [mkHeader, Header.op, Header.ch, Header.imm, BitVec.getLsbD_append, BitVec.getLsbD_extractLsb']
  by_cases h1 : i < 20
  · simp [h1]
  · by_cases h2 : i - 20 < 4
    · simp [h1, h2, show 20 + (i - 20) = i by omega]
    · simp [h1, h2, show 24 + (i - 20 - 4) = i by omega, show i - 20 - 4 < 8 by omega]

/-- Headers with the same fields are the same. -/
theorem Header.ext_fields {h h' : Header} (ho : h.op = h'.op) (hc : h.ch = h'.ch) (hi : h.imm = h'.imm) : h = h' := by
  rw [← mkHeader_fields h, ← mkHeader_fields h', ho, hc, hi]

/-- `c = H[20]` is the low bit of the channel field. -/
theorem chan_eq_ch (h : Header) : h.chan = if h.ch.getLsbD 0 then .c1 else .c0 := by
  simp [Header.chan, Header.ch]

@[simp] theorem chan_mkHeader_field (o : BitVec 8) (c : Chan) (i : Imm) : (mkHeader o c.field i).chan = c := by
  rw [chan_eq_ch, ch_mkHeader]
  cases c <;> rfl

/-- A channel field of at most 1 spells its channel. -/
theorem field_chan {h : Header} (hc : h.ch.toNat < 2) : h.chan.field = h.ch := by
  rw [chan_eq_ch]
  generalize h.ch = x at hc ⊢
  revert hc
  revert x
  decide

/-! ### Rows -/

/-- Matching a row is matching its three fields. -/
theorem matches_iff (r : OpRow) (h : Header) :
    r.matches h = true ↔
      h.op &&& r.mask.op = r.pat.op ∧ h.ch &&& r.mask.ch = r.pat.ch ∧ h.imm &&& r.mask.imm = r.pat.imm := by
  simp only [OpRow.matches, beq_iff_eq]
  have ho : (h &&& r.mask).op = h.op &&& r.mask.op := by simp [Header.op, BitVec.extractLsb'_and]
  have hc : (h &&& r.mask).ch = h.ch &&& r.mask.ch := by simp [Header.ch, BitVec.extractLsb'_and]
  have hi : (h &&& r.mask).imm = h.imm &&& r.mask.imm := by simp [Header.imm, BitVec.extractLsb'_and]
  constructor
  · intro e
    rw [← ho, ← hc, ← hi, e]
    exact ⟨rfl, rfl, rfl⟩
  · rintro ⟨h1, h2, h3⟩
    exact Header.ext_fields (ho.trans h1) (hc.trans h2) (hi.trans h3)

/-- A row with a full opcode mask matches only headers of its own opcode. -/
theorem op_of_matches {r : OpRow} {h : Header} (hr : r ∈ opRows) (hm : r.matches h = true) : h.op = r.pat.op := by
  have hmask : r.mask.op = BitVec.allOnes 8 := by
    clear hm
    revert r
    decide
  have := ((matches_iff r h).1 hm).1
  rwa [hmask, BitVec.and_allOnes] at this

/-- The row of a command. -/
def Instr.row : Instr → Opcode
  | .push _ _ _ => .push
  | .proc _ => .proc
  | .drain _ _ => .drain
  | .setblk _ => .setblk
  | .setexp _ => .setexp
  | .setgain _ => .setgain
  | .reset => .reset
  | .rdcsr _ _ => .rdcsr

/-! ### Registers -/

/-- The registers `csrSelect` finds are those `CsrLegal` allows (R55 d). -/
theorem csrSelect_isSome (c : Chan) (imm : Imm) : (csrSelect c imm).isSome = csrLegal imm c := by
  unfold csrSelect csrOfImm csrLegal isEngineCsr isChannelCsr
  generalize imm.toNat = n
  by_cases hn : n < 0x15
  · interval_cases n <;> cases c <;> rfl
  · have hr : csrOfNumber n = none := by
      unfold csrOfNumber
      split <;> first | omega | rfl
    simp only [hr]
    simp
    omega

end Sys2Proof
end

