-- ==== Sys2Proof/Laws/Float.lean ====
section
/-! SUPPORT. The fields of packed numbers, the kinds of results, and the rounding function's plain facts. -/

namespace Sys2Proof.Machine

/-! ### Fields -/

theorem fExp_lt (a : F64) : fExp a < 2048 := by
  unfold fExp
  have := (a.extractLsb' 52 11).isLt
  omega

theorem fFrac_lt (a : F64) : fFrac a < 2 ^ 52 := (a.extractLsb' 0 52).isLt

/-- A pattern is its sign, exponent and fraction. -/
theorem toNat_fields (a : F64) : a.toNat = (if fSign a then 2 ^ 63 else 0) + (fExp a * 2 ^ 52 + fFrac a) := by
  have ha : a.toNat < 2 ^ 64 := a.isLt
  have hs : fSign a = decide (2 ^ 63 ≤ a.toNat) := by
    rw [fSign, ← BitVec.msb_eq_getLsbD_last a, BitVec.msb_eq_decide]
  simp only [hs, fExp, fFrac, BitVec.extractLsb'_toNat, Nat.shiftRight_eq_div_pow]
  by_cases h : 2 ^ 63 ≤ a.toNat
  · simp only [h, decide_true, if_true]
    omega
  · simp only [h, decide_false, Bool.false_eq_true, if_false]
    omega

/-- Patterns with the same fields are the same. -/
theorem f64_ext {a b : F64} (hs : fSign a = fSign b) (he : fExp a = fExp b) (hf : fFrac a = fFrac b) : a = b := by
  apply BitVec.eq_of_toNat_eq
  rw [toNat_fields, toNat_fields, hs, he, hf]

theorem packF64_toNat {s : Bool} {m : Nat} (h : m < 2 ^ 63) :
    (packF64 s m).toNat = (if s then 2 ^ 63 else 0) + m := by
  rw [packF64, BitVec.toNat_ofNat, Nat.mod_eq_of_lt]
  cases s <;> simp <;> omega

@[simp] theorem fSign_packF64 {s : Bool} {m : Nat} (h : m < 2 ^ 63) : fSign (packF64 s m) = s := by
  rw [fSign, ← BitVec.msb_eq_getLsbD_last (packF64 s m), BitVec.msb_eq_decide, packF64_toNat h]
  cases s
  · simpa using h
  · simp

theorem fExp_packF64 {s : Bool} {m : Nat} (h : m < 2 ^ 63) : fExp (packF64 s m) = m / 2 ^ 52 := by
  rw [fExp, BitVec.extractLsb'_toNat, packF64_toNat h, Nat.shiftRight_eq_div_pow]
  cases s <;> (simp; omega)

theorem fFrac_packF64 {s : Bool} {m : Nat} (h : m < 2 ^ 63) : fFrac (packF64 s m) = m % 2 ^ 52 := by
  rw [fFrac, BitVec.extractLsb'_toNat, packF64_toNat h, Nat.shiftRight_eq_div_pow]
  cases s
  · simp
  · simp
    omega

/-! ### Kinds -/

/-- Every pattern is finite, infinite or a NaN. -/
theorem kind_cases (a : F64) : isFinite a = true ∨ isInf a = true ∨ isNaN a = true := by
  simp only [isFinite, isInf, isNaN, Bool.and_eq_true, decide_eq_true_eq]
  tauto

theorem not_isNaN_of_isFinite {a : F64} (h : isFinite a = true) : isNaN a = false := by
  simp_all [isFinite, isNaN]

theorem not_isInf_of_isFinite {a : F64} (h : isFinite a = true) : isInf a = false := by
  simp_all [isFinite, isInf]

theorem isFinite_of_isZero {a : F64} (h : isZero a = true) : isFinite a = true := by
  simp_all [isFinite, isZero]

theorem isZero_iff_fMag {a : F64} : isZero a = true ↔ isFinite a = true ∧ fMag a = 0 := by
  simp only [isZero, isFinite, fMag, Bool.and_eq_true, decide_eq_true_eq]
  constructor
  · rintro ⟨h, h'⟩
    simp [h, h']
  · rintro ⟨-, h⟩
    split at h
    · exact ⟨‹_›, h⟩
    · exact absurd h (by positivity)

/-- The free NaN is a NaN. -/
@[simp] theorem isNaN_nanResult (op : Config.FpOp) (a b : F64) : isNaN (nanResult op a b) = true := by
  have hf := fFrac_lt (Config.nanChoice op a b)
  unfold nanResult
  simp only [isNaN, Bool.and_eq_true, decide_eq_true_eq]
  split
  · rw [fExp_packF64 (by omega), fFrac_packF64 (by omega)]
    omega
  · rw [fExp_packF64 (by omega), fFrac_packF64 (by omega)]
    omega

@[simp] theorem isInf_infF64 (s : Bool) : isInf (infF64 s) = true := by cases s <;> decide

/-! ### Rounding -/

theorem roundMag_le (num den : Nat) : roundMag num den ≤ 2047 * 2 ^ 52 := Nat.min_le_right _ _

theorem roundMag_lt (num den : Nat) : roundMag num den < 2 ^ 63 := by
  have := roundMag_le num den
  omega

theorem roundDiv_zero (den : Nat) : roundDiv 0 den = 0 := by simp [roundDiv]

@[simp] theorem roundMag_zero (den : Nat) : roundMag 0 den = 0 := by
  simp [roundMag, dropBits, roundDiv_zero]

/-- Rounding to an integer is within half of one. -/
theorem roundDiv_bounds {num den : Nat} (h : 0 < den) :
    2 * num ≤ (2 * roundDiv num den + 1) * den ∧ 2 * roundDiv num den * den ≤ 2 * num + den := by
  have hd := Nat.div_add_mod num den
  have hm := Nat.mod_lt num h
  have e (x : Nat) : (2 * x + 1) * den = 2 * (den * x) + den := by ring
  have e' (x : Nat) : 2 * x * den = 2 * (den * x) := by ring
  have e'' (x : Nat) : den * (x + 1) = den * x + den := by ring
  simp only [roundDiv, e, e']
  generalize num / den = k at *
  generalize num % den = r at *
  split
  · rw [e'']
    omega
  · omega

end Sys2Proof.Machine
end

