-- ==== Sys2Proof/Laws/Ops.lean ====
section
/-! SUPPORT. What each shared operation can do, said once: the checks, the ends of a command, the channel commands,
the port. Proofs about commands cite these instead of unfolding. -/

namespace Sys2Proof.Machine

/-! ### The refusal and `ChanCheck` -/

theorem whenUnfaulted_none {s : State} (h : s.eng.fault = none) (body : Result) : whenUnfaulted s body = body := by
  simp [whenUnfaulted, h]

theorem whenUnfaulted_some {s : State} {f : Cause × Chan} (h : s.eng.fault = some f) (body : Result) :
    whenUnfaulted s body = .next (s.answer .fault []) := by
  simp [whenUnfaulted, h]

/-- A command under the refusal either is refused with nothing changed, or does its own effect. -/
theorem whenUnfaulted_cases {s t : State} {body : Result} (h : whenUnfaulted s body = .next t) :
    (∃ f, s.eng.fault = some f ∧ t = s.answer .fault []) ∨ (s.eng.fault = none ∧ body = .next t) := by
  cases hf : s.eng.fault with
  | none => exact .inr ⟨rfl, by rwa [whenUnfaulted_none hf] at h⟩
  | some f =>
    rw [whenUnfaulted_some hf] at h
    cases h
    exact .inl ⟨f, rfl, rfl⟩

theorem chanCheck_eq_none {s : State} {c : Chan} : chanCheck s c = none ↔ QueuesAgree s c ∧ OverlapFits s c := by
  unfold chanCheck QueuesAgree OverlapFits
  split
  · simp_all
  · split <;> simp_all

theorem chanCheck_queue {s : State} {c : Chan} (h : ¬ QueuesAgree s c) : chanCheck s c = some .invQueue := by
  simp [chanCheck, h]

theorem chanCheck_overlap {s : State} {c : Chan} (h : QueuesAgree s c) (h' : ¬ OverlapFits s c) :
    chanCheck s c = some .invOverlap := by
  simp [chanCheck, h, h']

theorem channelCommand_ready {s : State} {c : Chan} (h : Ready s c) (body : Result) :
    channelCommand s c body = body := by
  simp [channelCommand, whenUnfaulted_none h.1, chanCheck_eq_none.2 h.2]

theorem channelCommand_check {s : State} {c : Chan} {cause : Cause} (h : s.eng.fault = none)
    (hc : chanCheck s c = some cause) (body : Result) : channelCommand s c body = raiseFault s cause c := by
  simp [channelCommand, whenUnfaulted_none h, hc]

theorem channelCommand_faulted {s : State} {c : Chan} {f : Cause × Chan} (h : s.eng.fault = some f) (body : Result) :
    channelCommand s c body = .next (s.answer .fault []) := whenUnfaulted_some h _

/-- A channel-addressed command is refused with nothing changed, or raises a fault of `ChanCheck`, or is ready and
does its own effect. -/
theorem channelCommand_cases {s t : State} {c : Chan} {body : Result} (h : channelCommand s c body = .next t) :
    (∃ f, s.eng.fault = some f ∧ t = s.answer .fault []) ∨
    (∃ cause, s.eng.fault = none ∧ chanCheck s c = some cause ∧
      t = (s.setFault (some (cause, c))).answer .fault []) ∨
    (Ready s c ∧ body = .next t) := by
  rcases whenUnfaulted_cases h with hf | ⟨hf, hb⟩
  · exact .inl hf
  · cases hc : chanCheck s c with
    | none => exact .inr (.inr ⟨⟨hf, chanCheck_eq_none.1 hc⟩, by simpa [hc] using hb⟩)
    | some cause =>
      simp only [hc, raiseFault] at hb
      cases hb
      exact .inr (.inl ⟨cause, hf, rfl, rfl⟩)

/-! ### Capacities -/

theorem exceeds_eq_false {cap : Option Nat} {n : Nat} : exceeds cap n = false ↔ Within cap n := by
  cases cap <;> simp [exceeds, Within]

theorem exceeds_eq_true {cap : Option Nat} {n : Nat} : exceeds cap n = true ↔ ∃ k, cap = some k ∧ k < n := by
  cases cap <;> simp [exceeds]

/-! ### The ends of a command -/

theorem answered_answer (s : State) (st : Status) (d : List Word64) : Answered s (s.answer st d) st d :=
  ⟨rfl, rfl, rfl⟩

theorem rejected_reject (s : State) (st : Status) : ∃ t, reject s st = .next t ∧ Rejected s t st :=
  ⟨_, rfl, rfl, answered_answer s st []⟩

theorem raiseFault_entered (s : State) (cause : Cause) (c : Chan) :
    ∃ t, raiseFault s cause c = .next t ∧ FaultEntered s t (cause, c) :=
  ⟨_, rfl, by simp, by simp, by simp [Answered]⟩

theorem reconfigured_reconfigure (s : State) (k : Fin 13) :
    Reconfigured s ((s.reconfigure k).answer .ok []) (2 ^ (k.val + 1)) := by
  simp [Reconfigured, Answered]

/-! ### The commands under their checks -/

theorem execPush_ready {s : State} {c : Chan} (h : Ready s c) (a b : Word64)
    (hc : Within s.cfg.inqCap ((s.ch c).inA.length + 1)) :
    execPush c a b s = .next ((s.setCh c ((s.ch c).push a b)).answer .ok []) := by
  simp [execPush, channelCommand_ready h, exceeds_eq_false.2 hc, respondOk, f64OfBits]

theorem execPush_full {s : State} {c : Chan} (h : Ready s c) (a b : Word64)
    (hc : exceeds s.cfg.inqCap ((s.ch c).inA.length + 1) = true) :
    execPush c a b s = raiseFault s .ovfInput c := by
  simp [execPush, channelCommand_ready h, hc]

theorem procWith_ready (K : Config.Kernel) (W : Config.Window) {s : State} {c : Chan} (h : Ready s c)
    (hc : Within s.cfg.outqCap ((s.ch c).outQ.length + blockCount (s.ch c).inA.length s.blockLength * s.blockLength)) :
    procWith K W c s =
      .next ((s.setCh c (processAvailable K W s.blockLength s.eng.gain (s.ch c))).answer .ok []) := by
  simp [procWith, channelCommand_ready h, exceeds_eq_false.2 hc, respondOk]

theorem procWith_full (K : Config.Kernel) (W : Config.Window) {s : State} {c : Chan} (h : Ready s c)
    (hc : exceeds s.cfg.outqCap
      ((s.ch c).outQ.length + blockCount (s.ch c).inA.length s.blockLength * s.blockLength) = true) :
    procWith K W c s = raiseFault s .ovfOutput c := by
  simp [procWith, channelCommand_ready h, hc]

theorem execDrain_ready {s : State} {c : Chan} (h : Ready s c) (n : Imm) :
    execDrain c n s = .next ((s.setCh c ((s.ch c).drain n.toNat)).answer .ok ((s.ch c).drained n.toNat)) := by
  have hid : bitsF64 = id := rfl
  simp [execDrain, channelCommand_ready h, respondOk, immNat, hid]

/-! ### The amounts of a `DRAIN` -/

theorem ChannelState.ready_eq (x : ChannelState) (n : Nat) : x.ready n = min n x.outQ.length := by
  simp only [ready, shortfall]
  omega

theorem ChannelState.shortfall_add_ready (x : ChannelState) (n : Nat) : x.shortfall n + x.ready n = n := by
  simp only [ready, shortfall]
  omega

theorem ChannelState.length_drained (x : ChannelState) (n : Nat) : (x.drained n).length = n := by
  have h := x.shortfall_add_ready n
  have h' : x.ready n ≤ x.outQ.length := Nat.min_le_right _ _
  simp only [drained, List.length_append, length_zeros, List.length_take]
  omega

/-! ### The port -/

theorem takeInput_nil {s : State} (h : s.input = []) : takeInput s = none := by simp [takeInput, h]

theorem takeInput_cons {s : State} {x : HostInput} {rest : List HostInput} (h : s.input = x :: rest) :
    takeInput s = some (x, { s with input := rest }) := by simp [takeInput, h]

theorem step_nil {s : State} (h : s.input = []) : step s = .next s := by
  simp only [step, takeInput_nil h, idle]

theorem step_reset {s : State} {rest : List HostInput} (h : s.input = .hardwareReset :: rest) :
    step s = hardwareReset { s with input := rest } := by
  simp only [step, takeInput_cons h]

theorem step_illegal {s : State} {p : Packet} {rest : List HostInput} {why : Illegal}
    (h : s.input = .packet p :: rest) (hd : decode p = .error why) :
    step s = reject { s with input := rest } .illegal := by
  simp only [step, takeInput_cons h, hd, answerIllegal]

end Sys2Proof.Machine
end

