-- ==== Sys2Proof/Laws/PerInstr.lean ====
section
/-! SUPPORT. Laws stated command by command: every command's header matches its own row of the opcode map
(30_encoding.md R49), and no other. -/

namespace Sys2Proof.Laws.EncodesItsRow

-- one theorem at a time: fewer threads when this file is built alone
set_option Elab.async false

/-- The header a command is encoded with matches the command's row and no other row. -/
def Statement (i : Instr) : Prop := ∀ r ∈ opRows, r.matches i.header = true ↔ r.op = i.row

/-- The test of all eight rows against a header given by its fields. -/
theorem of_fields {i : Instr} {o : BitVec 8} {c : BitVec 4} {n : Imm} (hi : i.header = mkHeader o c n)
    (h : ∀ r ∈ opRows, (o &&& r.mask.op = r.pat.op ∧ c &&& r.mask.ch = r.pat.ch ∧ n &&& r.mask.imm = r.pat.imm) ↔
      r.op = i.row) : Statement i := by
  intro r hr
  rw [matches_iff, hi, op_mkHeader, ch_mkHeader, imm_mkHeader]
  exact h r hr

theorem push (c : Chan) (a b : F64) : Statement (.push c a b) :=
  of_fields rfl (by cases c <;> simp only [Chan.field, Instr.row] <;> decide)

theorem proc (c : Chan) : Statement (.proc c) :=
  of_fields rfl (by cases c <;> simp only [Chan.field, Instr.row] <;> decide)

theorem drain (c : Chan) (n : Imm) : Statement (.drain c n) :=
  of_fields rfl (by
    cases c <;> simp [opRows, Chan.field, Instr.row, Header.op, Header.ch, Header.imm])

theorem setblk (len : Imm) : Statement (.setblk len) :=
  of_fields rfl (by simp [opRows, Instr.row, Header.op, Header.ch, Header.imm])

theorem setexp (e : Imm) : Statement (.setexp e) :=
  of_fields rfl (by simp [opRows, Instr.row, Header.op, Header.ch, Header.imm])

theorem setgain (p : F64) : Statement (.setgain p) :=
  of_fields rfl (by simp only [Instr.row]; decide)

theorem reset : Statement .reset :=
  of_fields rfl (by simp only [Instr.row]; decide)

theorem rdcsr (c : Chan) (csr : Imm) : Statement (.rdcsr c csr) :=
  of_fields rfl (by
    cases c <;> simp [opRows, Chan.field, Instr.row, Header.op, Header.ch, Header.imm])

end Sys2Proof.Laws.EncodesItsRow
end

