-- ==== Sys2Proof/Laws/Tables.lean ====
section
/-! SUPPORT. What a configuration's tables say of its kernel and window: nothing where they list nothing, and exactly
what they list where they do. -/

namespace Sys2Proof.Machine

open Config (Kernel KernelTable Params TransformEntry Window WindowRow)

@[simp] theorem listedSlot_nil (N : Nat) (x : List F64) (i : Nat) : listedSlot [] N x i = none := rfl
@[simp] theorem listedValue_nil (N i : Nat) : listedValue [] N i = none := rfl

/-- `State.reset` fixes nothing of the kernel and the window. -/
theorem kernelOf_default : kernelOf Params.default = ⟨Config.fwdSlot, Config.invSlot⟩ := rfl
theorem windowOf_default : windowOf Params.default = Config.winValue := rfl

/-- A table whose entries are all results of one function gives that function's slots for every input it lists. -/
theorem listedSlot_of_mem {table : List TransformEntry} {f : Nat → List F64 → List F64}
    (hf : ∀ e ∈ table, e.output = f e.length e.input) {N : Nat} {x : List F64}
    (hx : ∃ e ∈ table, e.length = N ∧ e.input = x) (i : Nat) : listedSlot table N x i = (f N x)[i]? := by
  unfold listedSlot
  cases h : table.find? fun e => decide (e.length = N ∧ e.input = x) with
  | none =>
    obtain ⟨e, he, hk⟩ := hx
    simpa [hk.1, hk.2] using List.find?_eq_none.1 h e he
  | some e =>
    have hk := List.find?_some h
    simp only [decide_eq_true_eq] at hk
    simp [hf e (List.mem_of_find?_eq_some h), hk.1, hk.2]

/-- Where the table lists the forward transform of `K`, the configured kernel computes it. -/
theorem fwdT_kernelOf {p : Params} {K : Kernel} (hf : ∀ e ∈ p.kernelTable.fwd, e.output = K.fwdT e.length e.input)
    {N : Nat} {x : List F64} (hx : ∃ e ∈ p.kernelTable.fwd, e.length = N ∧ e.input = x) :
    (kernelOf p).fwdT N x = K.fwdT N x := by
  refine List.map_congr_left fun i hi => ?_
  simp [kernelOf, listedSlot_of_mem hf hx, Kernel.fwdT, List.mem_range.1 hi]

/-- Where the table lists the inverse transform of `K`, the configured kernel computes it. -/
theorem invT_kernelOf {p : Params} {K : Kernel} (hf : ∀ e ∈ p.kernelTable.inv, e.output = K.invT e.length e.input)
    {N : Nat} {x : List F64} (hx : ∃ e ∈ p.kernelTable.inv, e.length = N ∧ e.input = x) :
    (kernelOf p).invT N x = K.invT N x := by
  refine List.map_congr_left fun i hi => ?_
  simp [kernelOf, listedSlot_of_mem hf hx, Kernel.invT, List.mem_range.1 hi]

/-- A one-row window table gives the values it lists. -/
theorem windowOf_row {p : Params} {W : Window} {N : Nat} (hp : p.winTable = [⟨N, (List.range N).map (W N)⟩])
    {i : Nat} (hi : i < N) : windowOf p N i = W N i := by
  simp [windowOf, listedValue, hp, hi]

end Sys2Proof.Machine
end

