-- ==== Sys2Proof/Tests/Slice0.lean ====
section
/-! SUPPORT. Tests. Expected values are the listings and vectors of spec/: R60 (30_encoding.md), R94
(41_block_convolver.md) and V1 to V42 (95_test_vectors.md), named at each test. The last part shows, for every
statement with hypotheses, an input that meets them. -/

namespace Sys2Proof.Tests

-- one theorem at a time: fewer threads when this file is built alone
set_option Elab.async false

open Sys2Proof.Machine
open Sys2Proof.Config (Kernel Window Params)

/-! ### Well-formedness: the terms no packet spells -/

/-- V11: no CSR `0x07`, `0x0F`, `0x15`; `0xFFFFF` and `0x16` are no numbers of R27 either. -/
theorem test_wellFormed_refuses_unlisted_csr :
    ¬ WellFormed (.rdcsr .c0 0x07) ∧ ¬ WellFormed (.rdcsr .c0 0x0F) ∧ ¬ WellFormed (.rdcsr .c1 0x15) ∧
    ¬ WellFormed (.rdcsr .c1 0x16) ∧ ¬ WellFormed (.rdcsr .c0 0xFFFFF) := by decide

/-- V11: an engine register with channel 1. -/
theorem test_wellFormed_refuses_engine_csr_of_channel_1 :
    ¬ WellFormed (.rdcsr .c1 0x00) ∧ ¬ WellFormed (.rdcsr .c1 0x06) := by decide

/-- Ends of both ranges of R27. -/
theorem test_wellFormed_accepts_listed_csr :
    WellFormed (.rdcsr .c0 0x00) ∧ WellFormed (.rdcsr .c0 0x06) ∧ WellFormed (.rdcsr .c0 0x10) ∧
    WellFormed (.rdcsr .c1 0x14) := by decide

/-! ### Decoding -/

/-- R60, V11a: `PUSH 1, 2.0, 4.0`. -/
theorem test_decode_push : decode 0x0110000040000000000000004010000000000000 =
    .ok (.push .c1 0x4000000000000000 0x4010000000000000) := by decide

/-- V10: `PROC 1`. -/
theorem test_decode_proc : decode 0x0210000000000000000000000000000000000000 = .ok (.proc .c1) := by decide

/-- V10: `DRAIN 1, 1048575` and `DRAIN 0, 0`. -/
theorem test_decode_drain :
    decode 0x031FFFFF00000000000000000000000000000000 = .ok (.drain .c1 1048575) ∧
    decode 0x0300000000000000000000000000000000000000 = .ok (.drain .c0 0) := by decide

/-- V10, V2: `SETBLK 8192` and `SETBLK 100`. -/
theorem test_decode_setblk :
    decode 0x1000200000000000000000000000000000000000 = .ok (.setblk 8192) ∧
    decode 0x1000006400000000000000000000000000000000 = .ok (.setblk 100) := by decide

/-- V10, V11: `SETEXP 2`, and `SETEXP 1048575`, a legal packet. -/
theorem test_decode_setexp :
    decode 0x1100000200000000000000000000000000000000 = .ok (.setexp 2) ∧
    decode 0x110FFFFF00000000000000000000000000000000 = .ok (.setexp 1048575) := by decide

/-- V10: `SETGAIN 100.0`. -/
theorem test_decode_setgain :
    decode 0x1200000040590000000000000000000000000000 = .ok (.setgain 0x4059000000000000) := by decide

/-- V11: `RESET`, with operand words that are ignored (R47). -/
theorem test_decode_reset : decode 0x13000000FFFFFFFFFFFFFFFF0123456789ABCDEF = .ok .reset := by decide

/-- V10, V11: `RDCSR OVLLEN, 1` and `RDCSR OUTQCAP`. -/
theorem test_decode_rdcsr :
    decode 0x2010001400000000000000000000000000000000 = .ok (.rdcsr .c1 0x14) ∧
    decode 0x2000000600000000000000000000000000000000 = .ok (.rdcsr .c0 0x06) := by decide

/-- The packet with a header and zero operand words. -/
def headerOnly (h : Header) : Packet := mkPacket h 0 0

/-- V11: the illegal headers, with the case of R55 that each falls under. -/
theorem test_decode_illegal_headers :
    [0x00000000, 0x04000000, 0x14000000, 0x21000000, 0xFFFFFFFF].all
      (fun h => decide (decode (headerOnly h) = .error .opcode)) = true ∧
    [0x01200000, 0x02F00000, 0x03200000, 0x10100002, 0x13100000, 0x20200010].all
      (fun h => decide (decode (headerOnly h) = .error .channel)) = true ∧
    [0x01000001, 0x12000001].all (fun h => decide (decode (headerOnly h) = .error .immediate)) = true ∧
    [0x20000007, 0x2000000F, 0x20000015, 0x20100000].all
      (fun h => decide (decode (headerOnly h) = .error .csr)) = true := by
  refine ⟨?_, ?_, ?_, ?_⟩ <;> decide

/-- V11a: the bytes of `PUSH 1, 2.0, 4.0`, and the command read from them with one byte to spare. -/
theorem test_bytes_push :
    Packet.toBytes 0x0110000040000000000000004010000000000000 =
      [0x00, 0x00, 0x00, 0x00, 0x00, 0x00, 0x10, 0x40, 0x00, 0x00, 0x00, 0x00, 0x00, 0x00, 0x00, 0x40,
       0x00, 0x00, 0x10, 0x01] ∧
    decodeBytes [0x00, 0x00, 0x00, 0x00, 0x00, 0x00, 0x10, 0x40, 0x00, 0x00, 0x00, 0x00, 0x00, 0x00, 0x00, 0x40,
       0x00, 0x00, 0x10, 0x01, 0xAB] = .ok (.push .c1 0x4000000000000000 0x4010000000000000, [0xAB]) := by decide

/-- U20: nineteen bytes are no packet. -/
theorem test_bytes_torn : decodeBytes (List.replicate 19 0) = .error .torn := by decide

/-- R49: headers as the opcode table writes them, 32 bits each. -/
theorem test_decodeTableWord :
    decodeTableWord 32 0x03100003 = some (.drain .c1 3) ∧ decodeTableWord 32 0x01000000 = some (.push .c0 0 0) ∧
    decodeTableWord 32 0x20000007 = none := by decide

/-! ### Small states -/

/-- A channel with nothing in it and an overlap buffer of `len` zeros. -/
def quiet (len : Nat) : ChannelState := ChannelState.init len

/-- An unfaulted block of block length `2^(k+1)` and gain `1.0`. -/
def st (k : Fin 13) (x y : ChannelState) : State :=
  { block := { eng := ⟨k, 0x3FF0000000000000, none⟩, ch0 := x, ch1 := y }
    cfg := Params.default, input := [], responses := [] }

/-- The same state with capacities. -/
def capped (s : State) (i o : Nat) : State := { s with cfg := { s.cfg with inqCap := some i, outqCap := some o } }

/-- The same state with a recorded fault. -/
def faulted (s : State) (f : Cause × Chan) : State := s.setFault (some f)

/-- The same state with one packet presented. -/
def given (s : State) (p : Packet) : State := { s with input := [.packet p] }

/-- A field of the next state. -/
def after {α : Type} (r : Result) (f : State → α) : Option α :=
  match r with
  | .next t => some (f t)
  | .fault _ | .refused _ => none

/-- The last response of the next state. -/
def answerOf (r : Result) : Option Response := (after r fun t => t.responses.getLast?).join

/-- V33's state: length 4, three samples queued, an overlap tail, one output sample, latency 2. -/
def busy : State :=
  st 1 ⟨[0x3FF0000000000000, 0x4000000000000000, 0x4008000000000000],
        [0x3FF0000000000000, 0x4000000000000000, 0x4008000000000000],
        [0x4022000000000000, 0x4022000000000000, 0x4022000000000000, 0x4022000000000000],
        [0x401C000000000000], 2⟩ (quiet 4)

/-- V40's state: both invariants broken on channel 0. -/
def broken : State := st 1 ⟨[0x3FF0000000000000], [], [0, 0], [], 0⟩ (quiet 4)

/-- V40's second state: queues equal, overlap buffer too short. -/
def shortOverlap : State := st 1 ⟨[0x3FF0000000000000], [0x4000000000000000], [0, 0], [], 0⟩ (quiet 4)

/-- A ready channel 0 with an output queue. -/
def withOut (q : List F64) (lat : Nat) : State := st 0 { quiet 2 with outQ := q, lat := lat } (quiet 2)

/-! ### `PUSH` -/

/-- V28: bit patterns are stored unchanged, on the channel named only. -/
theorem test_push_keeps_patterns :
    after (exec (.push .c1 0x7FF8000000000001 0x8000000000000000) (st 0 (quiet 2) (quiet 2)))
      (fun t => (t.block.ch1.inA, t.block.ch1.inB, t.block.ch0)) =
      some ([0x7FF8000000000001], [0x8000000000000000], quiet 2) := by decide

/-- V29, with a small capacity. -/
theorem test_push_overflow :
    after (exec (.push .c0 1 2) (capped busy 3 9))
      (fun t => (t.eng.fault, t.block.ch0.inA.length, faultWord t.eng.fault)) =
      some (some (.ovfInput, .c0), 3, 0x0000000000000003) := by decide

/-! ### `PROC` -/

/-- V18: a queue of exactly one block is not processed. -/
theorem test_proc_needs_more_than_a_block :
    after (exec (.proc .c0) (st 1 ⟨[1, 2, 3, 4], [1, 2, 3, 4], [0, 0, 0, 0], [], 0⟩ (quiet 4)))
      (fun t => t.block.ch0) =
      some ⟨[1, 2, 3, 4], [1, 2, 3, 4], [0, 0, 0, 0], [], 0⟩ := by decide

/-- V21, with a small capacity. -/
theorem test_proc_overflow :
    after (exec (.proc .c1) (capped (st 0 (quiet 2) ⟨[1, 2, 3], [1, 2, 3], [0, 0], [7], 0⟩) 9 2))
      (fun t => (t.eng.fault, t.block.ch1, faultWord t.eng.fault)) =
      some (some (.ovfOutput, .c1), ⟨[1, 2, 3], [1, 2, 3], [0, 0], [7], 0⟩, 0x0000000000000104) := by decide

/-- V19. -/
theorem test_blockCount :
    [(4, 0), (4, 1), (4, 4), (4, 5), (4, 8), (4, 9), (2, 3), (2, 5), (8192, 8192), (8192, 8193), (8192, 16385)].map
      (fun (L, n) => (blockCount n L, n - L * blockCount n L)) =
      [(0, 0), (0, 1), (0, 4), (1, 1), (1, 4), (2, 1), (1, 1), (2, 1), (0, 8192), (1, 1), (2, 1)] := by decide

/-- V23. -/
theorem test_overlapAdd :
    overlapAdd 2 [0x8000000000000000, 0x4014000000000000, 0x401C000000000000, 0x4022000000000000]
      [0x0000000000000000, 0x3FF8000000000000] =
      ([0x0000000000000000, 0x401A000000000000], [0x401C000000000000, 0x4022000000000000]) := by decide +kernel

/-- The reference kernel of R92 at length 4 (`KSIGN = +1`, `KRHO(4) = 2`), in binary64: by R88 and R90 with every
cosine and sine 0, 1 or -1; exact on the small integers of the vectors. -/
def refKernel4 : Kernel :=
  let neg (a : F64) : F64 := a ^^^ 0x8000000000000000
  let half : F64 := 0x3FE0000000000000
  { fwd := fun _ x i =>
      let a := x.getD 0 0
      let b := x.getD 1 0
      let c := x.getD 2 0
      let d := x.getD 3 0
      match i with
      | 0 => fadd (fadd a b) (fadd c d)
      | 1 => fadd (fadd a (neg b)) (fadd c (neg d))
      | 2 => fadd a (neg c)
      | _ => fadd b (neg d)
    inv := fun _ X j =>
      let dc := X.getD 0 0
      let ny := X.getD 1 0
      let re := fmul 0x4000000000000000 (X.getD 2 0)
      let im := fmul 0x4000000000000000 (X.getD 3 0)
      match j with
      | 0 => fmul half (fadd (fadd dc ny) re)
      | 1 => fmul half (fadd (fadd dc (neg ny)) im)
      | 2 => fmul half (fadd (fadd dc ny) (neg re))
      | _ => fmul half (fadd (fadd dc (neg ny)) (neg im)) }

/-- The binary64 window table for length 4 of R94. -/
def window4 : Window := fun _ i =>
  match i with
  | 0 => 0x0000000000000000
  | 1 => 0x3FEAE89F995AD3AD
  | 2 => 0x3FF0000000000000
  | _ => 0x3FEAE89F995AD3AE

/-- V12: `y = [3, 3, 1, 1]`, and `r[0]` to `r[2]` with the table of R94. -/
theorem test_convolve_ones :
    convolveRaw refKernel4 2 0x3FF0000000000000 [0x3FF0000000000000, 0x3FF0000000000000]
      [0x3FF0000000000000, 0x3FF0000000000000] =
      [0x4008000000000000, 0x4008000000000000, 0x3FF0000000000000, 0x3FF0000000000000] ∧
    (convolve refKernel4 window4 2 0x3FF0000000000000 [0x3FF0000000000000, 0x3FF0000000000000]
      [0x3FF0000000000000, 0x3FF0000000000000]).take 3 =
      [0x0000000000000000, 0x40042E77B3041EC2, 0x3FF0000000000000] := by decide +kernel

/-- V13: `a = [1, 2]`, `b = [3, 4]` give `y = [14, 18, 8, 2]`. -/
theorem test_convolve_slotwise :
    convolveRaw refKernel4 2 0x3FF0000000000000 [0x3FF0000000000000, 0x4000000000000000]
      [0x4008000000000000, 0x4010000000000000] =
      [0x402C000000000000, 0x4032000000000000, 0x4020000000000000, 0x4000000000000000] := by decide +kernel

/-- A configuration with the transforms V12 and V20 list (R92) and the window table of R94. -/
def listed : Params :=
  { Params.default with
    kernelTable :=
      { fwd := [⟨4, [0x3FF0000000000000, 0x3FF0000000000000, 0, 0],
                    [0x4000000000000000, 0, 0x3FF0000000000000, 0x3FF0000000000000]⟩,
                ⟨4, [0x3FF0000000000000, 0x4000000000000000, 0, 0],
                    [0x4008000000000000, 0xBFF0000000000000, 0x3FF0000000000000, 0x4000000000000000]⟩,
                ⟨4, [0x3FF0000000000000, 0x4010000000000000, 0, 0],
                    [0x4014000000000000, 0xC008000000000000, 0x3FF0000000000000, 0x4010000000000000]⟩]
        inv := [⟨4, [0x4010000000000000, 0, 0x3FF0000000000000, 0x3FF0000000000000],
                    [0x4008000000000000, 0x4008000000000000, 0x3FF0000000000000, 0x3FF0000000000000]⟩,
                ⟨4, [0x402E000000000000, 0x4008000000000000, 0x3FF0000000000000, 0x4020000000000000],
                    [0x4024000000000000, 0x402C000000000000, 0x4020000000000000, 0xC000000000000000]⟩] }
    winTable := [⟨4, [0x0000000000000000, 0x3FEAE89F995AD3AD, 0x3FF0000000000000, 0x3FEAE89F995AD3AE]⟩] }

/-- V20 and program P1: two blocks through `exec`, with the configured kernel and window; the last output sample and the
new overlap buffer have the patterns P1 gives. -/
theorem test_proc_two_blocks :
    after (exec (.proc .c0)
      { st 0 ⟨[0x3FF0000000000000, 0x3FF0000000000000, 0x3FF0000000000000, 0x4000000000000000, 0],
              [0x3FF0000000000000, 0x3FF0000000000000, 0x3FF0000000000000, 0x4010000000000000, 0], [0, 0], [], 5⟩
        (quiet 2) with cfg := listed })
      (fun t => (t.block.ch0.inA, t.block.ch0.ovl, t.block.ch0.outQ, t.block.ch0.lat)) =
      some ([0], [0x4020000000000000, 0xBFFAE89F995AD3AE],
        [0x0000000000000000, 0x40042E77B3041EC2, 0x3FF0000000000000, 0x40293A159FC52672], 5) := by decide +kernel

/-! ### `DRAIN` -/

/-- V24: a shortfall. -/
theorem test_drain_shortfall :
    answerOf (exec (.drain .c0 3) (withOut [0x4014000000000000, 0x4018000000000000] 0)) =
      some ⟨.ok, [0x0000000000000000, 0x4014000000000000, 0x4018000000000000]⟩ ∧
    after (exec (.drain .c0 3) (withOut [0x4014000000000000, 0x4018000000000000] 0))
      (fun t => (t.block.ch0.outQ, t.block.ch0.lat)) = some ([], 1) := by decide

/-- V25 and V27: nothing asked for; more queued than asked for. -/
theorem test_drain_of_a_long_queue :
    after (exec (.drain .c0 0) (withOut [0x4014000000000000] 3)) (fun t => (t.block.ch0.outQ, t.block.ch0.lat)) =
      some ([0x4014000000000000], 0) ∧
    after (exec (.drain .c0 2) (withOut [0x4014000000000000, 0x4018000000000000, 0x401C000000000000] 9))
      (fun t => (t.responses, t.block.ch0.outQ, t.block.ch0.lat)) =
      some ([⟨.ok, [0x4014000000000000, 0x4018000000000000]⟩], [0x401C000000000000], 0) := by decide

/-! ### `SETBLK`, `SETEXP`, `RESET` -/

/-- V31: which operands are lengths, from length 4. -/
theorem test_setblk_range :
    [(0, 4), (1, 4), (2, 2), (3, 4), (4, 4), (6, 4), (100, 4), (4096, 4096), (8191, 4), (8192, 8192), (8193, 4),
     (16384, 4), (524288, 4), (1048575, 4)].all (fun (len, now) =>
      decide (after (exec (.setblk (BitVec.ofNat 20 len)) busy) State.blockLength = some now) &&
      decide ((answerOf (exec (.setblk (BitVec.ofNat 20 len)) busy)).map Response.status =
        some (if [2, 4, 4096, 8192].contains len then .ok else .cfgErr))) = true := by decide +kernel

/-- V33: the queues and the latency are kept. -/
theorem test_setblk_keeps_queues :
    after (exec (.setblk 2) busy) (fun t => t.block.ch0) =
      some { busy.block.ch0 with ovl := [0, 0] } ∧
    after (exec (.setblk 2) busy) (fun t => t.block.ch1.ovl) = some [0, 0] := by decide

/-- V32. -/
theorem test_setexp_range :
    [(0, 4), (1, 2), (2, 4), (12, 4096), (13, 8192), (14, 4), (20, 4), (1048575, 4)].all (fun (e, now) =>
      decide (after (exec (.setexp (BitVec.ofNat 20 e)) busy) State.blockLength = some now) &&
      decide ((answerOf (exec (.setexp (BitVec.ofNat 20 e)) busy)).map Response.status =
        some (if [1, 2, 12, 13].contains e then .ok else .cfgErr))) = true := by decide +kernel

/-- V34, V35: the soft reset, and its refusal while faulted. -/
theorem test_reset :
    after (exec .reset busy) (fun t => t.block.ch0) = some { busy.block.ch0 with ovl := [0, 0, 0, 0] } ∧
    after (exec .reset (faulted busy (.invQueue, .c0))) id =
      some ((faulted busy (.invQueue, .c0)).answer .fault []) := by decide

/-! ### `SETGAIN` -/

/-- V36: the finite rows. -/
theorem test_setgain_finite :
    [(0x0000000000000000, 0x0000000000000000), (0x8000000000000000, 0x8000000000000000),
     (0x3FF0000000000000, 0x3EB0C6F7A0B5ED8D), (0x4024000000000000, 0x3EE4F8B588E368F1),
     (0x4039000000000000, 0x3EFA36E2EB1C432D), (0x4049000000000000, 0x3F0A36E2EB1C432D),
     (0x4059000000000000, 0x3F1A36E2EB1C432D), (0xC049000000000000, 0xBF0A36E2EB1C432D),
     (0x412E848000000000, 0x3FF0000000000000), (0x0000000000000001, 0x0000000000000000),
     (0x7FEFFFFFFFFFFFFF, 0x7EB0C6F7A0B5ED8D)].all (fun (p, g) =>
      decide (after (exec (.setgain p) busy) (fun t => t.eng.gain) = some g)) = true := by decide +kernel

/-- V36: the rows that are no number. -/
theorem test_setgain_not_finite :
    [0x7FF0000000000000, 0xFFF0000000000000, 0x7FF8000000000000, 0x7FF0000000000001].all (fun p =>
      decide (after (exec (.setgain p) busy) id = some (busy.answer .cfgErr []))) = true := by decide

/-! ### `RDCSR`, faults, priority -/

/-- V37, at the parameters of `State.reset`. -/
theorem test_rdcsr_after_reset :
    [(0x00, 2), (0x01, 0x3EE4F8B588E368F1), (0x02, 0), (0x03, 2), (0x04, 0x2000), (0x05, 0xFFFFFFFFFFFFFFFF),
     (0x06, 0xFFFFFFFFFFFFFFFF), (0x10, 0), (0x11, 0), (0x12, 0), (0x13, 0), (0x14, 2)].all (fun (csr, w) =>
      decide (answerOf (exec (.rdcsr .c0 csr) State.reset) = some ⟨.ok, [w]⟩)) = true := by decide +kernel

/-- V39: reading while faulted. -/
theorem test_rdcsr_while_faulted :
    answerOf (exec (.rdcsr .c0 0x02) (faulted busy (.ovfInput, .c1))) = some ⟨.ok, [0x0000000000000103]⟩ ∧
    answerOf (step (given (faulted busy (.ovfInput, .c1)) (headerOnly 0x20000007))) = some ⟨.illegal, []⟩ := by
  decide +kernel

/-- V40: the queue test comes first, then the overlap test. -/
theorem test_chanCheck_order :
    after (exec (.push .c0 1 1) broken) (fun t => (faultWord t.eng.fault, t.block.ch0)) = some (1, broken.block.ch0) ∧
    after (exec (.push .c0 1 1) shortOverlap) (fun t => (faultWord t.eng.fault, t.block.ch0)) =
      some (2, shortOverlap.block.ch0) := by decide

/-- V41: a recorded fault comes before a configuration error, an illegal packet before both. -/
theorem test_priority_while_faulted :
    answerOf (step (given (faulted busy (.invQueue, .c0)) (headerOnly 0x10000064))) = some ⟨.fault, []⟩ ∧
    answerOf (step (given (faulted busy (.invQueue, .c0)) (headerOnly 0x10100064))) = some ⟨.illegal, []⟩ := by
  decide +kernel

/-- V42: `SETBLK` repairs a short overlap buffer. -/
theorem test_setblk_repairs_overlap :
    after (exec (.setblk 4) shortOverlap) (fun t => chanCheck t .c0) = some none := by decide

/-- V11b: response headers. -/
theorem test_response_headers :
    Response.header ⟨.ok, []⟩ = 0x00000000 ∧ Response.header ⟨.ok, [1, 2, 3]⟩ = 0x00000003 ∧
    Response.header ⟨.cfgErr, []⟩ = 0x01000000 ∧ Response.header ⟨.illegal, []⟩ = 0x02000000 ∧
    Response.header ⟨.fault, []⟩ = 0x03000000 := by decide

/-- R52, R39: the bytes of the answer of V27, the header first. -/
theorem test_response_bytes :
    Response.toBytes ⟨.ok, [0x4014000000000000, 0x4018000000000000]⟩ =
      [0x02, 0x00, 0x00, 0x00, 0, 0, 0, 0, 0, 0, 0x14, 0x40, 0, 0, 0, 0, 0, 0, 0x18, 0x40] := by decide

/-! ### Arithmetic -/

/-- R10: rounding to nearest, ties to even, `1 + 2^-53` down and `1 + 3 * 2^-53` up; and a carry into an infinity. -/
theorem test_fadd_rounding :
    fadd 0x3FF0000000000000 0x3CA0000000000000 = 0x3FF0000000000000 ∧
    fadd 0x3FF0000000000001 0x3CA0000000000000 = 0x3FF0000000000002 ∧
    fadd 0x7FEFFFFFFFFFFFFF 0x7FEFFFFFFFFFFFFF = 0x7FF0000000000000 := by decide +kernel

/-- R95: subnormals are kept: half the smallest normal number; a half of the smallest subnormal ties to zero. -/
theorem test_fmul_subnormal :
    fmul 0x0010000000000000 0x3FE0000000000000 = 0x0008000000000000 ∧
    fmul 0x8000000000000001 0x3FE0000000000000 = 0x8000000000000000 := by decide +kernel

/-! ### Witnesses: for every statement with hypotheses, inputs that meet them

Where a statement has several clauses, each clause has its input, at the ends of its range. -/

/-- A result whose next state is known by one of its fields. -/
theorem next_of_after {r : Result} {α : Type} {f : State → α} {x : α} (h : after r f = some x) :
    ∃ t, r = .next t ∧ f t = x := by
  cases r with
  | next t => exact ⟨t, rfl, by simpa [after] using h⟩
  | fault r => cases r
  | refused r => simp [after] at h

/-- A result that ends unfaulted. -/
theorem unfaulted_of_after {r : Result} (h : after r (fun t => t.eng.fault) = some none) :
    ∃ t, r = .next t ∧ Unfaulted t := next_of_after h

/-- The state `given` a packet, in the form the statements use. -/
theorem given_input (s : State) (p : Packet) : (given s p).input = .packet p :: [] := rfl

/-- Three samples on each input of channel 0, block length 2: one block is ready. -/
def oneBlock : State := st 0 ⟨[1, 2, 3], [4, 5, 6], [0, 0], [7], 9⟩ (quiet 2)

/-- A legal state with a packet presented. -/
def legalState : State := given (capped oneBlock 8193 8192) (headerOnly 0x02000000)

theorem legalState_inv : Inv legalState where
  legal := by decide
  lengthLegal := ⟨1, by decide, by decide, rfl⟩
  gainFinite := by decide
  queues := fun c => by cases c <;> decide
  overlap := fun c => by cases c <;> decide
  inputFits := fun c => by cases c <;> decide
  outputFits := fun c => by cases c <;> decide
  latency := fun c => by cases c <;> decide

theorem witness_HardwareResetLeavesTheInitValues :
    (∃ p : Params, p.inqCap = none ∧ p.outqCap = none) ∧
    (∃ (p : Params) (k k' : Nat), p.inqCap = some k ∧ k < 2 ^ 64 ∧ p.outqCap = some k' ∧ k' < 2 ^ 64) :=
  ⟨⟨⟨12, none, none, ⟨[], []⟩, []⟩, rfl, rfl⟩, ⟨0, some (2 ^ 64 - 1), some 8192, ⟨[], []⟩, []⟩, _, _, rfl, by decide, rfl,
    by decide⟩

theorem witness_ResetInputBringsAnyStateToInit :
    ∃ (s : State) (rest : List HostInput), s.input = .hardwareReset :: rest ∧ s.eng.fault = some (.invQueue, .c0) :=
  ⟨{ faulted busy (.invQueue, .c0) with input := [.hardwareReset] }, [], rfl, rfl⟩

theorem witness_InvariantHoldsAfterReset :
    Params.Legal ⟨0, some 8193, some 8192, ⟨[], []⟩, []⟩ ∧ Params.Legal ⟨12, none, none, ⟨[], []⟩, []⟩ := by decide

theorem witness_StepKeepsTheInvariant : ∃ s t : State, Inv s ∧ step s = .next t ∧ Unfaulted t := by
  obtain ⟨t, h, hu⟩ := unfaulted_of_after (r := step legalState) (by decide +kernel)
  exact ⟨_, t, legalState_inv, h, hu⟩

/-- Commands of all three kinds of answer, and an illegal packet. -/
theorem witness_EveryPacketGetsOneResponse :
    (∃ (s : State) (p : Packet) (rest : List HostInput), s.input = .packet p :: rest ∧ decode p = .ok (.drain .c1 3) ∧
      answerOf (step s) = some ⟨.ok, [0, 0, 0]⟩) ∧
    (∃ (s : State) (p : Packet) (rest : List HostInput), s.input = .packet p :: rest ∧
      decode p = .ok (.rdcsr .c1 0x14) ∧ answerOf (step s) = some ⟨.ok, [4]⟩) ∧
    (∃ (s : State) (p : Packet) (rest : List HostInput), s.input = .packet p :: rest ∧
      decode p = .ok .reset ∧ answerOf (step s) = some ⟨.ok, []⟩) ∧
    (∃ (s : State) (p : Packet) (rest : List HostInput), s.input = .packet p :: rest ∧
      decode p = .error .opcode ∧ answerOf (step s) = some ⟨.illegal, []⟩) :=
  ⟨⟨_, _, _, given_input busy (headerOnly 0x03100003), by decide, by decide +kernel⟩,
   ⟨_, _, _, given_input busy (headerOnly 0x20100014), by decide, by decide +kernel⟩,
   ⟨_, _, _, given_input busy (headerOnly 0x13000000), by decide, by decide +kernel⟩,
   ⟨_, _, _, given_input busy (headerOnly 0x00000000), by decide, by decide +kernel⟩⟩

theorem witness_StepRunsTheDecodedCommand :
    (∃ (s : State) (p : Packet) (rest : List HostInput) (i : Instr),
      s.input = .packet p :: rest ∧ decode p = .ok i ∧ i = .setexp 13) ∧
    (∃ (nbits w : Nat) (i : Instr), decodeTableWord nbits w = some i ∧ i = .drain .c1 3) :=
  ⟨⟨_, _, _, _, given_input busy (headerOnly 0x1100000D), by decide, rfl⟩, 32, 0x03100003, _, by decide, rfl⟩

theorem witness_IdleStepHoldsTheState : State.reset.input = [] := rfl

/-- Every case of R55, and a packet of none. -/
theorem witness_IllegalPacketsAreExactlyTheListedOnes :
    (∃ p rest, (given busy p).input = .packet p :: rest ∧ IllegalPacket p) ∧
    (∃ p rest, (given busy p).input = .packet p :: rest ∧ ¬ IllegalPacket p) ∧
    IllegalPacket (headerOnly 0x04000000) ∧ IllegalPacket (headerOnly 0x01200000) ∧
    IllegalPacket (headerOnly 0x10100002) ∧ IllegalPacket (headerOnly 0x12000001) ∧
    IllegalPacket (headerOnly 0x20000007) ∧ IllegalPacket (headerOnly 0x20100000) ∧
    ¬ IllegalPacket (headerOnly 0x20100014) ∧ ¬ IllegalPacket (headerOnly 0x20000006) := by
  refine ⟨⟨headerOnly 0, [], rfl, ?_⟩, ⟨headerOnly 0x13000000, [], rfl, ?_⟩, ?_, ?_, ?_, ?_, ?_, ?_, ?_, ?_⟩ <;>
    unfold IllegalPacket IllegalHeader <;> decide

theorem witness_NoTwoRowsMatchOneHeader :
    ∃ (h : Header) (r r' : OpRow), r ∈ opRows ∧ r' ∈ opRows ∧ h &&& r.mask = r.pat ∧ h &&& r'.mask = r'.pat :=
  ⟨0x031FFFFF, ⟨.drain, 0xFFE00000, 0x03000000⟩, ⟨.drain, 0xFFE00000, 0x03000000⟩, by decide, by decide, by decide,
    by decide⟩

theorem witness_DecodeOfEncodeIsTheCommand :
    WellFormed (.push .c1 0xFFFFFFFFFFFFFFFF 0) ∧ WellFormed (.drain .c0 1048575) ∧ WellFormed (.rdcsr .c0 0x06) ∧
    WellFormed (.rdcsr .c1 0x10) := by decide

theorem witness_UnusedOperandWordsAreIgnored :
    ∃ (p q : Packet) (i : Instr), decode p = .ok i ∧ q.header = p.header ∧ usesOpa i = true ∧ q.opa = p.opa ∧
      usesOpb i = false ∧ q.opb ≠ p.opb :=
  ⟨0x1200000040590000000000000000000000000000, 0x1200000040590000000000000000000000000001,
    .setgain 0x4059000000000000, by decide, by decide, by decide, by decide, by decide, by decide⟩

/-- A full queue less one, a full queue, and both faults of the check. -/
theorem witness_PushAppendsOneSampleToEachQueue :
    (Ready (capped busy 4 9) .c0 ∧ Within (some 4) ((busy.ch .c0).inA.length + 1)) ∧
    (Ready (capped busy 3 9) .c0 ∧ ¬ Within (some 3) ((busy.ch .c0).inA.length + 1)) ∧
    (Unfaulted broken ∧ chanCheck broken .c0 = some .invQueue) ∧
    (Unfaulted shortOverlap ∧ chanCheck shortOverlap .c0 = some .invOverlap) := by decide

theorem witness_PushNAppendsAllSamplesInOrder :
    Ready (capped busy 5 9) .c0 ∧
    Within (some 5) ((busy.ch .c0).inA.length + [((1 : F64), (2 : F64)), (3, 4)].length) := by decide

/-- One block that just fits, and one that does not. -/
theorem witness_ProcTakesBlockCountTurns :
    (Ready (capped oneBlock 9 3) .c0 ∧ blockCount (oneBlock.ch .c0).inA.length oneBlock.blockLength = 1 ∧
      Within (some 3) ((oneBlock.ch .c0).outQ.length + 1 * oneBlock.blockLength)) ∧
    (Ready (capped oneBlock 9 2) .c0 ∧
      ¬ Within (some 2) ((oneBlock.ch .c0).outQ.length + 1 * oneBlock.blockLength)) := by decide

theorem witness_OneTurnConvolvesAndOverlapAdds :
    ∃ (L : Nat) (x : ChannelState), L < x.inA.length ∧ x.inA.length = x.inB.length ∧ x.ovl.length = L ∧ 0 < L :=
  ⟨2, oneBlock.ch .c0, by decide⟩

theorem witness_ProcLeavesAtMostOneBlockQueued :
    ∃ s t c, Ready s c ∧ exec (.proc c) s = .next t ∧ Unfaulted t ∧ 1 ≤ (s.ch c).inA.length := by
  obtain ⟨t, h, hu⟩ := unfaulted_of_after (r := exec (.proc .c0) oneBlock) (by decide +kernel)
  exact ⟨_, t, _, by decide, h, hu, by decide⟩

theorem witness_ProcTwiceIsProcOnce : ∃ s t c, Ready s c ∧ exec (.proc c) s = .next t ∧ Unfaulted t := by
  obtain ⟨t, h, hu⟩ := unfaulted_of_after (r := exec (.proc .c0) oneBlock) (by decide +kernel)
  exact ⟨_, t, _, by decide, h, hu⟩

/-- The clauses of R69: none, one, exactly one block, one more than a block. -/
theorem witness_BlockCountIsTheNumberOfTurns :
    (2 ≤ 8192 ∧ 8192 ≤ 8192) ∧ (2 ≤ 8192 ∧ 8192 < 8193) ∧ (2 ≤ 2 ∧ 1 ≤ 1) ∧
    ∃ x : ChannelState, x.inA.length = 3 := ⟨by decide, by decide, by decide, oneBlock.ch .c0, rfl⟩

/-- With a tail, and over zeros with a first sample of `-0.0` and a NaN after it. -/
theorem witness_OverlapAddSumsAndKeepsTheTail :
    (∃ (L : Nat) (r ovl : List F64), r.length = 2 * L ∧ ovl.length = L ∧ ovl ≠ List.replicate L 0) ∧
    (∃ (L : Nat) (r ovl : List F64), r.length = 2 * L ∧ ovl.length = L ∧ ovl = List.replicate L 0 ∧
      isNaN (r.getD 0 0) = false ∧ r.getD 0 0 = 0x8000000000000000 ∧ isNaN (r.getD 1 0) = true) :=
  ⟨⟨2, [1, 2, 3, 4], [5, 6], by decide⟩, 2, [0x8000000000000000, 0x7FF8000000000000, 3, 4], [0, 0], by decide⟩

theorem witness_DrainDeliversZerosThenTheOldestSamples :
    Ready (withOut [5, 6] 0) .c0 ∧ (Unfaulted broken ∧ chanCheck broken .c0 = some .invQueue) ∧
    (Unfaulted shortOverlap ∧ chanCheck shortOverlap .c0 = some .invOverlap) := by decide

/-- Two drains that empty the queue together. -/
theorem witness_SuccessiveDrainsDeliverInOrder :
    ∃ (s t u v : State) (c : Chan) (n m k : Imm) (d₁ d₂ d₃ : List Word64), Ready s c ∧
      k.toNat = n.toNat + m.toNat ∧ k.toNat ≤ (s.ch c).outQ.length ∧
      exec (.drain c n) s = .next t ∧ Answered s t .ok d₁ ∧ exec (.drain c m) t = .next u ∧ Answered t u .ok d₂ ∧
      exec (.drain c k) s = .next v ∧ Answered s v .ok d₃ :=
  ⟨withOut [5, 6, 7] 0, _, _, _, .c0, 1, 2, 3, [5], [6, 7], [5, 6, 7], by decide, by decide, by decide,
    rfl, ⟨rfl, rfl, rfl⟩, rfl, ⟨rfl, rfl, rfl⟩, rfl, rfl, rfl, rfl⟩

theorem witness_ChanCheckRaisesTheFirstBrokenInvariant :
    (addressed (.drain .c0 0) = some .c0 ∧ Unfaulted broken ∧ ¬ QueuesAgree broken .c0) ∧
    (addressed (.proc .c0) = some .c0 ∧ Unfaulted shortOverlap ∧ QueuesAgree shortOverlap .c0 ∧
      ¬ OverlapFits shortOverlap .c0) := by decide

/-- The same channel content on channel 0 of one state and on channel 1 of another. -/
theorem witness_ChannelCommandsAreConfinedToTheirChannel :
    ∃ (s s' t t' : State) (i : Instr) (c d : Chan), addressed i = some c ∧ s'.ch d = s.ch c ∧ s'.eng = s.eng ∧
      s'.cfg = s.cfg ∧ exec i s = .next t ∧ exec (readdress d i) s' = .next t' ∧ c ≠ d :=
  ⟨st 0 (quiet 2) ⟨[1], [2], [0, 0], [], 0⟩, st 0 ⟨[1], [2], [0, 0], [], 0⟩ (quiet 2), _, _, .push .c1 3 4, .c1, .c0,
    rfl, rfl, rfl, rfl, rfl, rfl, by decide⟩

theorem witness_CommandsOnDifferentChannelsCommute :
    ∃ (s t u t' u' : State) (i j : Instr) (c d : Chan), addressed i = some c ∧ addressed j = some d ∧ c ≠ d ∧
      exec i s = .next t ∧ exec j t = .next u ∧ Unfaulted u ∧ exec j s = .next t' ∧ exec i t' = .next u' ∧
      Unfaulted u' :=
  ⟨withOut [5] 0, _, _, _, _, .drain .c0 2, .push .c1 3 4, .c0, .c1, rfl, rfl, by decide, rfl, rfl, rfl, rfl, rfl, rfl⟩

/-- Three pushes at block length 2, so that a block is processed in both runs. -/
theorem witness_PlacementOfProcDoesNotMatter :
    ∃ (s t u : State) (c : Chan) (xs : List (F64 × F64)), Ready s c ∧ xs ≠ [] ∧
      (runAll (pushN c xs ++ [.proc c]) s = .next t ∧ Unfaulted t) ∧
      runAll (xs.flatMap fun x => [.push c x.1 x.2, .proc c]) s = .next u ∧ Unfaulted u := by
  obtain ⟨t, ht⟩ := unfaulted_of_after
    (r := runAll (pushN .c0 [(1, 2), (3, 4), (5, 6)] ++ [.proc .c0]) (st 0 (quiet 2) (quiet 2))) (by decide +kernel)
  obtain ⟨u, hu⟩ := unfaulted_of_after
    (r := runAll ([((1 : F64), (2 : F64)), (3, 4), (5, 6)].flatMap fun x => [.push .c0 x.1 x.2, .proc .c0])
      (st 0 (quiet 2) (quiet 2))) (by decide +kernel)
  exact ⟨_, t, u, .c0, _, by decide, by decide, ht, hu⟩

/-- Two callbacks of three samples at block length 2. -/
theorem witness_LatencyFollowsTheRecurrence :
    ∃ (p : Params) (c : Chan) (calls : List (List (F64 × F64))) (t : State), calls ≠ [] ∧
      (∀ x ∈ calls, x.length < 2 ^ 20) ∧ runAll (calls.flatMap (callback c)) (State.init p) = .next t ∧
      Unfaulted t := by
  obtain ⟨t, ht⟩ := unfaulted_of_after
    (r := runAll ([[(1, 1), (1, 1), (1, 1)], [(1, 1), (1, 1), (1, 1)]].flatMap (callback .c0))
      (State.init Params.default)) (by decide +kernel)
  exact ⟨_, .c0, _, t, by decide, by decide, ht⟩

theorem witness_ConvolveIsComputedSlotBySlot :
    ∃ (L : Nat) (a b : List F64), a.length = L ∧ b.length = L ∧ 0 < L := ⟨2, [1, 2], [3, 4], by decide⟩

/-- A kernel that answers zeros. -/
def zeroKernel : Kernel := ⟨fun _ _ _ => 0, fun _ _ _ => 0⟩

/-- A window that is 0 at the start and 1 elsewhere. -/
def stepWindow : Window := fun _ i => if i = 0 then 0 else 0x3FF0000000000000

theorem zeroKernel_zero : KZero zeroKernel := by
  intro N x _ _ _
  constructor <;> intro v hv <;> simp [zeroKernel, Kernel.fwdT, Kernel.invT] at hv <;> simp [hv.2] <;> decide

theorem stepWindow_zero : WZero stepWindow := fun _ _ => rfl

theorem stepWindow_range : WRange stepWindow := by
  have one : fUnits 0x3FF0000000000000 = 2 ^ 1074 := by decide +kernel
  have zero : fUnits 0 = 0 := by decide
  intro N i _ _
  by_cases hi : i = 0
  · simp only [stepWindow, hi, if_true, toRat, zero]
    exact ⟨by decide, by norm_num, by norm_num⟩
  · simp only [stepWindow, hi, if_false, toRat, one, ulpExp]
    exact ⟨by decide, by positivity, by norm_num⟩

/-- The shortest and the longest blocks. -/
theorem witness_ZeroBlocksConvolveToZero (k : Nat) (_ : k = 1 ∨ k = 13) :
    KZero zeroKernel ∧ WRange stepWindow ∧ 1 ≤ k ∧ k ≤ 13 ∧ isFinite 0x3EE4F8B588E368F1 = true ∧
    (zeros (2 ^ k)).length = 2 ^ k ∧ ∀ v ∈ zeros (2 ^ k), isZero v = true := by
  refine ⟨zeroKernel_zero, stepWindow_range, by omega, by omega, by decide, by simp, ?_⟩
  intro v hv
  rw [(List.mem_replicate.1 hv).2]
  decide

theorem witness_ConvolveIsSymmetric :
    ∃ (K : Kernel) (L : Nat) (a b : List F64), a ≠ b ∧ ∀ i, i < 2 * L →
      isNaN (fmul (K.fwd (2 * L) (zeroExtend L a) i) (K.fwd (2 * L) (zeroExtend L b) i)) = false :=
  ⟨refKernel4, 2, [0x3FF0000000000000, 0x4000000000000000], [0x4008000000000000, 0x4010000000000000], by decide,
    by decide +kernel⟩

/-- An old tail of `5.0`, and one of `-0.0`. -/
theorem witness_FirstSampleOfABlockIsTheOldTail :
    ∃ (K : Kernel) (W : Window) (k : Nat) (g : F64) (a b ovl ovl' : List F64), WZero W ∧ 1 ≤ k ∧ k ≤ 13 ∧
      ovl.length = 2 ^ k ∧ ovl'.length = 2 ^ k ∧ isFinite ((convolveRaw K (2 ^ k) g a b).getD 0 0) = true ∧
      (isNaN (ovl.getD 0 0) = false ∧ isZero (ovl.getD 0 0) = false) ∧ isZero (ovl'.getD 0 0) = true :=
  ⟨refKernel4, stepWindow, 1, 0x3FF0000000000000, [0x3FF0000000000000, 0x4000000000000000],
    [0x4008000000000000, 0x4010000000000000], [0x4014000000000000, 0], [0x8000000000000000, 0], stepWindow_zero,
    by decide, by decide, rfl, rfl, by decide +kernel, by decide, by decide⟩

/-- For `FaddRoundsOnceToNearestEven`, `FmulRoundsOnceToNearestEven` and `FdivRoundsOnceToNearestEven`: both sides of the
overflow bound. -/
theorem witness_FaddFmulFdivRoundOnceToNearestEven :
    (∃ a b : F64, isFinite a = true ∧ isFinite b = true ∧ isZero b = false ∧ |toRat a + toRat b| < overflowBound ∧
      |toRat a * toRat b| < overflowBound ∧ |toRat a / toRat b| < overflowBound) ∧
    (∃ a b : F64, isFinite a = true ∧ isFinite b = true ∧ overflowBound ≤ |toRat a + toRat b| ∧
      overflowBound ≤ |toRat a * toRat b|) ∧
    (∃ a b : F64, isFinite a = true ∧ isFinite b = true ∧ isZero b = false ∧ overflowBound ≤ |toRat a / toRat b|) := by
  have hp : (1 : ℚ) ≤ 2 ^ 970 := one_le_pow₀ (by norm_num)
  have one : toRat 0x3FF0000000000000 = 1 := by
    have h : fUnits 0x3FF0000000000000 = 2 ^ 1074 := by decide +kernel
    rw [toRat, h, ulpExp]
    simp only [Int.cast_pow, Int.cast_ofNat]
    exact div_self (pow_ne_zero _ two_ne_zero)
  have half : toRat 0x3FE0000000000000 = 1 / 2 := by
    have h : fUnits 0x3FE0000000000000 = 2 ^ 1073 := by decide +kernel
    have hq : (0 : ℚ) < 2 ^ 1073 := by positivity
    rw [toRat, h, ulpExp, show (2 : ℚ) ^ 1074 = 2 ^ 1073 * 2 from pow_succ 2 1073]
    simp only [Int.cast_pow, Int.cast_ofNat]
    generalize (2 : ℚ) ^ 1073 = q at hq ⊢
    field_simp
  have big : toRat 0x7FEFFFFFFFFFFFFF = (2 ^ 54 - 2) * 2 ^ 970 := by
    have h : fUnits 0x7FEFFFFFFFFFFFFF = (2 ^ 53 - 1) * 2 * 2 ^ 970 * 2 ^ 1074 := by decide +kernel
    rw [toRat, h, ulpExp]
    simp only [Int.cast_mul, Int.cast_sub, Int.cast_pow, Int.cast_ofNat, Int.cast_one]
    rw [mul_div_cancel_right₀ _ (by positivity)]
    generalize (2 : ℚ) ^ 970 = p
    ring
  refine ⟨⟨0x3FF0000000000000, 0x3FF0000000000000, by decide, by decide, by decide, ?_, ?_, ?_⟩,
    ⟨0x7FEFFFFFFFFFFFFF, 0x7FEFFFFFFFFFFFFF, by decide, by decide, ?_, ?_⟩,
    ⟨0x7FEFFFFFFFFFFFFF, 0x3FE0000000000000, by decide, by decide, by decide, ?_⟩⟩ <;>
  · simp only [one, half, big, overflowBound]
    generalize (2 : ℚ) ^ 970 = p at hp
    rw [abs_of_nonneg (by norm_num; try nlinarith)]
    nlinarith

/-- One pair for each clause. -/
theorem witness_SpecialValuesFollowIeee :
    isNaN 0x7FF8000000000000 = true ∧
    (isZero 0x8000000000000000 = true ∧ isInf 0x7FF0000000000000 = true) ∧
    (isInf 0x7FF0000000000000 = true ∧ isInf 0xFFF0000000000000 = true ∧
      fSign 0x7FF0000000000000 ≠ fSign 0xFFF0000000000000) ∧
    (isInf 0xFFF0000000000000 = true ∧ isFinite 0x7FEFFFFFFFFFFFFF = true) ∧
    (isZero 0x8000000000000000 = true ∧ isFinite 0x7FEFFFFFFFFFFFFF = true) := by decide

/-- A table of NaNs is not positive (R93), and an infinity is near no number (R91). -/
theorem test_properties_exclude_nan_and_infinity :
    ¬ WPos (fun _ _ => 0x7FF8000000000000) ∧ ¬ Near 1 0 0x7FF0000000000000 := by
  refine ⟨fun h => ?_, fun h => absurd h.1 (by decide)⟩
  rcases h 4 1 ⟨2, by decide, by decide, rfl⟩ (by decide) (by decide) with h | h
  · exact absurd h.1 (by decide)
  · exact absurd h.1 (by decide)

theorem kernelLength_4 : kernelLength 4 := ⟨2, by decide, by decide, rfl⟩

theorem witness_KernelSignsGiveMirrorImages :
    ∃ (ρ : ℝ) (N : Nat) (p y y' : Nat → ℝ), kernelLength N ∧ IdealInv 1 ρ N p y ∧ IdealInv (-1) ρ N p y' :=
  ⟨2, 4, fun i => i, _, _, kernelLength_4, fun _ _ => rfl, fun _ _ => rfl⟩

theorem witness_IdealKernelRoundTripScales :
    ∃ (σ ρ : ℝ) (N : Nat) (x X y : Nat → ℝ), IsKSign σ ∧ kernelLength N ∧ IdealFwd σ N x X ∧ IdealInv σ ρ N X y :=
  ⟨-1, 2, 4, fun i => i, _, _, .inr rfl, kernelLength_4, fun _ _ => rfl, fun _ _ => rfl⟩

theorem witness_FourPointConvolverInIdealArithmetic :
    ∃ (σ ρ g a0 a1 b0 b1 : ℝ) (ta tb y : Nat → ℝ), IsKSign σ ∧
      IdealFwd σ 4 (fun j => if j = 0 then a0 else if j = 1 then a1 else 0) ta ∧
      IdealFwd σ 4 (fun j => if j = 0 then b0 else if j = 1 then b1 else 0) tb ∧
      IdealInv σ ρ 4 (fun i => ta i * tb i * g) y :=
  ⟨1, 2, 1, 1, 2, 3, 4, _, _, _, .inl rfl, fun _ _ => rfl, fun _ _ => rfl, fun _ _ => rfl⟩

/-- The ends of the legal lengths, and the numbers around them and between. -/
theorem witness_SetblkSetsExactlyTheLegalLengths :
    Unfaulted busy ∧ (∀ len : Imm, len = 2 ∨ len = 8192 → ∃ k, 1 ≤ k ∧ k ≤ 13 ∧ len.toNat = 2 ^ k) ∧
    (∀ len : Imm, len = 0 ∨ len = 1 ∨ len = 3 ∨ len = 8191 ∨ len = 8193 ∨ len = 16384 →
      ¬ ∃ k, 1 ≤ k ∧ k ≤ 13 ∧ len.toNat = 2 ^ k) := by
  refine ⟨rfl, ?_, ?_⟩
  · rintro len (rfl | rfl)
    · exact ⟨1, by decide, by decide, rfl⟩
    · exact ⟨13, by decide, by decide, rfl⟩
  · rintro len h ⟨k, h1, h2, h3⟩
    rcases h with rfl | rfl | rfl | rfl | rfl | rfl <;> interval_cases k <;> simp at h3

theorem witness_SetexpIsSetblkOfThePowerOfTwo :
    Unfaulted busy ∧ (1 ≤ (1 : Imm).toNat ∧ (1 : Imm).toNat ≤ 13) ∧ (1 ≤ (13 : Imm).toNat ∧ (13 : Imm).toNat ≤ 13) ∧
    ((0 : Imm).toNat < 1) ∧ 13 < (14 : Imm).toNat := by decide

theorem witness_SoftResetZeroesTheOverlapBuffersOnly : Unfaulted busy ∧ (busy.ch .c0).ovl ≠ zeros 4 := by decide

theorem witness_ReconfigurationIsIdempotent :
    (∃ (s t u : State) (x : Imm), exec (.setblk x) s = .next t ∧ exec (.setblk x) t = .next u ∧ t.block ≠ s.block) ∧
    (∃ (s t u : State) (x : Imm), exec (.setexp x) s = .next t ∧ exec (.setexp x) t = .next u ∧ t.block ≠ s.block) ∧
    (∃ s t u : State, exec .reset s = .next t ∧ exec .reset t = .next u ∧ t.block ≠ s.block) ∧ Unfaulted busy :=
  ⟨⟨busy, _, _, 2, rfl, rfl, by decide⟩, ⟨busy, _, _, 1, rfl, rfl, by decide⟩,
    ⟨busy, _, _, rfl, rfl, by decide⟩, rfl⟩

/-- Two states that differ in an overlap buffer. -/
theorem witness_SetblkDiscardsTheOverlapTails :
    ∃ (s s' t t' : State) (len : Imm), Unfaulted s ∧ (∃ k, 1 ≤ k ∧ k ≤ 13 ∧ len.toNat = 2 ^ k) ∧
      s'.eng = s.eng ∧ (∀ c, ∃ o, s'.ch c = { s.ch c with ovl := o }) ∧ s'.block ≠ s.block ∧
      exec (.setblk len) s = .next t ∧ exec (.setblk len) s' = .next t' :=
  ⟨busy, busy.setCh .c0 ((busy.ch .c0).zeroOvl 4), _, _, 2, rfl, ⟨1, by decide, by decide, rfl⟩, rfl,
    fun c => by cases c <;> exact ⟨_, rfl⟩, by decide, rfl, rfl⟩

/-- The largest finite operand, and the smallest infinite one. -/
theorem witness_SetgainDividesFiniteInput :
    Unfaulted busy ∧ isFinite 0x7FEFFFFFFFFFFFFF = true ∧ isFinite 0x7FF0000000000000 = false := by decide

theorem witness_GainMapKeepsFiniteInputFinite :
    isFinite 0xFFEFFFFFFFFFFFFF = true ∧ isFinite 0x0000000000000001 = true := by decide

/-- Capacities absent and at the end of the range, and levels within it. -/
theorem witness_RdcsrReadsTheRegisterTable :
    (busy.cfg.inqCap = none ∧ busy.cfg.outqCap = none) ∧
    (∃ s : State, s.cfg.inqCap = some (2 ^ 64 - 1) ∧ 2 ^ 64 - 1 < 2 ^ 64 ∧ s.cfg.outqCap = some 8192) ∧
    ((busy.ch .c0).lat < 2 ^ 64 ∧ (busy.ch .c0).inA.length < 2 ^ 64 ∧ (busy.ch .c0).inB.length < 2 ^ 64 ∧
      (busy.ch .c0).outQ.length < 2 ^ 64 ∧ (busy.ch .c0).ovl.length < 2 ^ 64) :=
  ⟨by decide, ⟨capped busy (2 ^ 64 - 1) 8192, rfl, by decide, rfl⟩, by decide⟩

theorem witness_RdcsrCompletesExactlyWhenLegal :
    csrLegal 0x00 .c0 = true ∧ csrLegal 0x06 .c0 = true ∧ csrLegal 0x10 .c1 = true ∧ csrLegal 0x14 .c1 = true ∧
    csrLegal 0x07 .c0 = false ∧ csrLegal 0x0F .c0 = false ∧ csrLegal 0x15 .c1 = false ∧ csrLegal 0x06 .c1 = false := by
  decide

/-- No fault, each cause with its channel, and a faulted state with a packet presented. -/
theorem witness_FaultRegisterHoldsCauseAndChannel :
    busy.eng.fault = none ∧
    (∀ f : Cause × Chan, (faulted busy f).eng.fault = some f) ∧
    ∃ (s t : State) (f : Cause × Chan), s.eng.fault = some f ∧ (∀ rest, s.input ≠ .hardwareReset :: rest) ∧
      step s = .next t :=
  ⟨rfl, fun _ => rfl, by
    obtain ⟨t, h, -⟩ := next_of_after (r := step (given (faulted busy (.ovfInput, .c1)) (headerOnly 0x13000000)))
      (f := fun t => t.eng.fault) (x := some (.ovfInput, .c1)) (by decide +kernel)
    exact ⟨_, t, _, rfl, by simp [given], h⟩⟩

theorem witness_FaultedBlockRefusesEveryOtherCommand :
    ∃ (s : State) (f : Cause × Chan) (i : Instr), s.eng.fault = some f ∧ (∀ c csr, i ≠ .rdcsr c csr) ∧
      i = .setblk 100 :=
  ⟨faulted busy (.invQueue, .c0), _, _, rfl, by simp, rfl⟩

theorem witness_FaultedBlockIsFrozenUntilReset :
    ∃ (s t : State) (f : Cause × Chan), s.eng.fault = some f ∧ (∀ rest, s.input ≠ .hardwareReset :: rest) ∧
      step s = .next t := witness_FaultRegisterHoldsCauseAndChannel.2.2

/-- Every column of the table of R22 is written by some command. -/
theorem witness_OnlyTheMarkedCommandsWriteEachState :
    (∃ t, exec (.setblk 2) busy = .next t ∧ t.blockLength ≠ busy.blockLength) ∧
    (∃ t, exec (.setgain 0) busy = .next t ∧ t.eng.gain ≠ busy.eng.gain) ∧
    (∃ t, exec (.proc .c0) broken = .next t ∧ t.eng.fault ≠ broken.eng.fault) ∧
    (∃ t, exec (.push .c0 1 2) busy = .next t ∧ (t.ch .c0).inA ≠ (busy.ch .c0).inA) ∧
    (∃ t, exec .reset busy = .next t ∧ (t.ch .c0).ovl ≠ (busy.ch .c0).ovl) ∧
    (∃ t, exec (.drain .c0 1) busy = .next t ∧ (t.ch .c0).outQ ≠ (busy.ch .c0).outQ ∧
      (t.ch .c0).lat ≠ (busy.ch .c0).lat) := by
  refine ⟨⟨_, rfl, by decide⟩, ?_, ⟨_, rfl, by decide⟩, ⟨_, rfl, by decide⟩, ⟨_, rfl, by decide⟩, ⟨_, rfl, by decide⟩⟩
  obtain ⟨t, h, hg⟩ := next_of_after (r := exec (.setgain 0) busy) (f := fun t => t.eng.gain) (x := 0)
    (by decide +kernel)
  exact ⟨t, h, by rw [hg]; decide⟩

end Sys2Proof.Tests
end

section
/-! The step with nothing presented (O7). -/

namespace Sys2Proof.Machine

/-- Settles O7: with an empty input `takeInput` finds nothing, and `step` idles. -/
theorem idleStepHoldsTheState : Obligations.IdleStepHoldsTheState := fun _ h => step_nil h

end Sys2Proof.Machine
end

section
/-! Configuring a kernel and a window (O55): tables that list the calls of one `PROC`, and nothing else. -/

namespace Sys2Proof.Machine

open Config (Kernel KernelTable TransformEntry Window WindowRow)

/-! ### What a `PROC` asks of its kernel and window -/

theorem exec_proc (c : Chan) (s : State) : exec (.proc c) s = procWith (kernelOf s.cfg) (windowOf s.cfg) c s := rfl

section
variable {K K' : Kernel} {W W' : Window} {L : Nat} {g : F64}

theorem applyWindow_congr {N : Nat} (h : ∀ i, i < N → W' N i = W N i) (y : List F64) :
    applyWindow W' N y = applyWindow W N y := by
  have hrow : (List.range N).map (W' N) = (List.range N).map (W N) :=
    List.map_congr_left fun i hi => h i (List.mem_range.1 hi)
  rw [applyWindow, applyWindow, hrow]

/-- The input of the inverse transform that convolves two blocks (R84). -/
def spectrum (K : Kernel) (L : Nat) (g : F64) (a b : List F64) : List F64 :=
  slotProduct g (K.fwdT (2 * L) (zeroExtend L a)) (K.fwdT (2 * L) (zeroExtend L b))

theorem convolve_eq_spectrum (K : Kernel) (W : Window) (L : Nat) (g : F64) (a b : List F64) :
    convolve K W L g a b = applyWindow W (2 * L) (K.invT (2 * L) (spectrum K L g a b)) := rfl

/-- `Convolve` calls the kernel three times: kernels and windows that agree there convolve alike. -/
theorem convolve_congr {a b : List F64}
    (ha : K'.fwdT (2 * L) (zeroExtend L a) = K.fwdT (2 * L) (zeroExtend L a))
    (hb : K'.fwdT (2 * L) (zeroExtend L b) = K.fwdT (2 * L) (zeroExtend L b))
    (hi : K'.invT (2 * L) (spectrum K L g a b) = K.invT (2 * L) (spectrum K L g a b))
    (hw : ∀ i, i < 2 * L → W' (2 * L) i = W (2 * L) i) :
    convolve K' W' L g a b = convolve K W L g a b := by
  have hs : spectrum K' L g a b = spectrum K L g a b := by rw [spectrum, ha, hb, spectrum]
  rw [convolve_eq_spectrum, hs, hi, applyWindow_congr hw, convolve_eq_spectrum]

/-- The two input blocks of turn `i` of the loop of R65. -/
def turnBlocks (L : Nat) (x : ChannelState) (i : Nat) : List F64 × List F64 :=
  ((x.inA.drop (i * L)).take L, (x.inB.drop (i * L)).take L)

theorem turnBlocks_processBlock (x : ChannelState) (i : Nat) :
    turnBlocks L (processBlock K W L g x) i = turnBlocks L x (i + 1) := by
  simp [turnBlocks, Nat.add_mul, Nat.add_comm]

/-- The loop convolves its turns' blocks and depends on kernel and window in no other way. -/
theorem processBlocks_congr {fuel : Nat} {x : ChannelState}
    (h : ∀ i, i < fuel → convolve K' W' L g (turnBlocks L x i).1 (turnBlocks L x i).2 =
      convolve K W L g (turnBlocks L x i).1 (turnBlocks L x i).2) :
    processBlocks K' W' L g fuel x = processBlocks K W L g fuel x := by
  induction fuel generalizing x with
  | zero => rfl
  | succ fuel ih =>
    have hturn : processBlock K' W' L g x = processBlock K W L g x := by
      have h0 := h 0 (Nat.succ_pos _)
      simp only [turnBlocks, Nat.zero_mul, List.drop_zero] at h0
      rw [processBlock, processBlock, h0]
    have hrest : processBlocks K' W' L g fuel (processBlock K W L g x) =
        processBlocks K W L g fuel (processBlock K W L g x) :=
      ih fun i hi => by
        rw [turnBlocks_processBlock]
        exact h (i + 1) (Nat.succ_lt_succ hi)
    rw [processBlocks, processBlocks, hturn, hrest]

/-- `PROC` uses kernel and window only to process the blocks of its channel. -/
theorem procWith_congr {c : Chan} {s : State}
    (h : processAvailable K' W' s.blockLength s.eng.gain (s.ch c) =
      processAvailable K W s.blockLength s.eng.gain (s.ch c)) :
    procWith K' W' c s = procWith K W c s := by
  rw [procWith, procWith, h]

end

/-! ### Tables that list these calls -/

/-- The table that lists every call of `K` made to convolve the given pairs of blocks. -/
def kernelTableFor (K : Kernel) (L : Nat) (g : F64) (blocks : List (List F64 × List F64)) : KernelTable where
  fwd := (blocks.flatMap fun b => [zeroExtend L b.1, zeroExtend L b.2]).map
    fun x => ⟨2 * L, x, K.fwdT (2 * L) x⟩
  inv := blocks.map fun b => ⟨2 * L, spectrum K L g b.1 b.2, K.invT (2 * L) (spectrum K L g b.1 b.2)⟩

/-- The window table with the one row that transforms of length `N` read. -/
def winTableFor (W : Window) (N : Nat) : List WindowRow := [⟨N, (List.range N).map (W N)⟩]

/-- Under these tables the listed pairs of blocks are convolved as with `K` and `W`. -/
theorem convolve_configured {p : Config.Params} {K : Kernel} {W : Window} {L : Nat} {g : F64}
    {blocks : List (List F64 × List F64)} (hk : p.kernelTable = kernelTableFor K L g blocks)
    (hw : p.winTable = winTableFor W (2 * L)) {b : List F64 × List F64} (hb : b ∈ blocks) :
    convolve (kernelOf p) (windowOf p) L g b.1 b.2 = convolve K W L g b.1 b.2 := by
  have hfwd : ∀ e ∈ p.kernelTable.fwd, e.output = K.fwdT e.length e.input := by
    rw [hk]
    exact List.forall_mem_map.2 fun _ _ => rfl
  have hinv : ∀ e ∈ p.kernelTable.inv, e.output = K.invT e.length e.input := by
    rw [hk]
    exact List.forall_mem_map.2 fun _ _ => rfl
  have hfwdMem : ∀ x ∈ [zeroExtend L b.1, zeroExtend L b.2],
      ∃ e ∈ p.kernelTable.fwd, e.length = 2 * L ∧ e.input = x := fun x hx => by
    rw [hk]
    exact ⟨_, List.mem_map_of_mem (List.mem_flatMap.2 ⟨b, hb, hx⟩), rfl, rfl⟩
  have hinvMem : ∃ e ∈ p.kernelTable.inv, e.length = 2 * L ∧ e.input = spectrum K L g b.1 b.2 := by
    rw [hk]
    exact ⟨_, List.mem_map_of_mem hb, rfl, rfl⟩
  exact convolve_congr (fwdT_kernelOf hfwd (hfwdMem _ (by simp))) (fwdT_kernelOf hfwd (hfwdMem _ (by simp)))
    (invT_kernelOf hinv hinvMem) fun i hi => windowOf_row hw hi

/-- The blocks of every turn a `PROC` of a channel can take. -/
def turnsOf (L : Nat) (x : ChannelState) : List (List F64 × List F64) :=
  (List.range x.inA.length).map (turnBlocks L x)

/-- Settles O55: the tables list the calls of the turns that this `PROC` can take. -/
theorem everyKernelAndWindowCanBeConfigured : Obligations.EveryKernelAndWindowCanBeConfigured := by
  intro K W s c
  refine ⟨kernelTableFor K s.blockLength s.eng.gain (turnsOf s.blockLength (s.ch c)),
    winTableFor W (2 * s.blockLength), ?_⟩
  intro s'
  rw [exec_proc]
  exact procWith_congr <| processBlocks_congr fun i hi =>
    convolve_configured rfl rfl (List.mem_map_of_mem (List.mem_range.2 hi))

end Sys2Proof.Machine
end

section
/-! Rounding to nearest, ties to even (R10; O33, O34, O35): the values of the magnitude bits, the rounded bits as the
nearest of them, and the signs. -/

namespace Sys2Proof.Machine

/-! ### The value of magnitude bits, in units of `2^-1074` -/

/-- The units that the magnitude bits `n` (exponent and fraction fields as one number) stand for, the exponent not
bounded above. -/
def magValue (n : Nat) : Nat := if n / 2 ^ 52 = 0 then n % 2 ^ 52 else (2 ^ 52 + n % 2 ^ 52) * 2 ^ (n / 2 ^ 52 - 1)

/-- The magnitude bits of a pattern. -/
def magBits (a : F64) : Nat := fExp a * 2 ^ 52 + fFrac a

theorem magBits_packF64 {s : Bool} {m : Nat} (h : m < 2 ^ 63) : magBits (packF64 s m) = m := by
  rw [magBits, fExp_packF64 h, fFrac_packF64 h]
  omega

theorem magValue_magBits (a : F64) : magValue (magBits a) = fMag a := by
  have hf := fFrac_lt a
  have hdiv : (fExp a * 2 ^ 52 + fFrac a) / 2 ^ 52 = fExp a := by omega
  have hmod : (fExp a * 2 ^ 52 + fFrac a) % 2 ^ 52 = fFrac a := by omega
  rw [magValue, magBits, hdiv, hmod, fMag]

theorem isFinite_iff_magBits {a : F64} : isFinite a = true ↔ magBits a < 2047 * 2 ^ 52 := by
  have he := fExp_lt a
  have hf := fFrac_lt a
  rw [isFinite, magBits, decide_eq_true_eq]
  omega

/-- With `s` bits dropped and `k` left, the value is `k * 2^s`: subnormal, normal or carried to `2^53`. -/
theorem magValue_scaled {s k : Nat} (hk : k ≤ 2 ^ 53) (hs : s = 0 ∨ 2 ^ 52 ≤ k) :
    magValue (s * 2 ^ 52 + k) = k * 2 ^ s := by
  rcases Nat.lt_or_ge k (2 ^ 52) with hsub | hnorm
  · obtain rfl : s = 0 := by omega
    have hdiv : (0 * 2 ^ 52 + k) / 2 ^ 52 = 0 := by omega
    have hmod : (0 * 2 ^ 52 + k) % 2 ^ 52 = k := by omega
    rw [magValue, hdiv, hmod, if_pos rfl, pow_zero, Nat.mul_one]
  rcases Nat.lt_or_ge k (2 ^ 53) with hlt | hcarry
  · have hdiv : (s * 2 ^ 52 + k) / 2 ^ 52 = s + 1 := by omega
    have hmod : 2 ^ 52 + (s * 2 ^ 52 + k) % 2 ^ 52 = k := by omega
    rw [magValue, hdiv, hmod, if_neg (Nat.succ_ne_zero s), Nat.add_sub_cancel]
  · have hdiv : (s * 2 ^ 52 + k) / 2 ^ 52 = s + 2 := by omega
    have hmod : (s * 2 ^ 52 + k) % 2 ^ 52 = 0 := by omega
    obtain rfl : k = 2 ^ 53 := by omega
    rw [magValue, hdiv, hmod, if_neg (Nat.succ_ne_zero _)]
    simp only [Nat.add_zero, Nat.succ_sub_one, pow_succ]
    ring

/-- Every number is such a pair of dropped bits and bits left. -/
theorem exists_scaled (n : Nat) : ∃ s k, n = s * 2 ^ 52 + k ∧ k < 2 ^ 53 ∧ (s = 0 ∨ 2 ^ 52 ≤ k) := by
  rcases Nat.lt_or_ge n (2 ^ 53) with h | h
  · exact ⟨0, n, by omega, h, .inl rfl⟩
  · exact ⟨n / 2 ^ 52 - 1, n % 2 ^ 52 + 2 ^ 52, by omega, by omega, .inr (by omega)⟩

theorem magValue_strictMono : StrictMono magValue := by
  refine strictMono_nat_of_lt_succ fun n => ?_
  obtain ⟨s, k, rfl, hk, hs⟩ := exists_scaled n
  rw [magValue_scaled hk.le hs, Nat.add_assoc, magValue_scaled hk (by omega)]
  exact Nat.mul_lt_mul_of_pos_right (Nat.lt_succ_self k) (by positivity)

/-- A value is a multiple of `2^s`, or it is below every value with `s` bits dropped. -/
theorem magValue_multiple_or_lt (s n : Nat) :
    (∃ j, magValue n = j * 2 ^ s) ∨ 0 < s ∧ magValue n < 2 ^ 52 * 2 ^ s := by
  obtain ⟨t, k, rfl, hk, ht⟩ := exists_scaled n
  rw [magValue_scaled hk.le ht]
  rcases Nat.lt_or_ge t s with hts | hst
  · refine .inr ⟨by omega, ?_⟩
    calc k * 2 ^ t < 2 ^ 53 * 2 ^ t := Nat.mul_lt_mul_of_pos_right hk (by positivity)
      _ = 2 ^ 52 * 2 ^ (t + 1) := by rw [pow_succ, pow_succ]; ring
      _ ≤ 2 ^ 52 * 2 ^ s := Nat.mul_le_mul_left _ (Nat.pow_le_pow_right two_pos hts)
  · refine .inl ⟨k * 2 ^ (t - s), ?_⟩
    rw [Nat.mul_assoc, ← pow_add, Nat.sub_add_cancel hst]

/-! ### `roundDiv` is the nearest integer -/

/-- Half-way between two integers the even one is taken. -/
theorem roundDiv_even_of_tie {num den : Nat} (h : 0 < den)
    (htie : 2 * num = (2 * roundDiv num den + 1) * den ∨ 2 * roundDiv num den * den = 2 * num + den) :
    roundDiv num den % 2 = 0 := by
  have hd := Nat.div_add_mod num den
  have hm := Nat.mod_lt num h
  have e (x : Nat) : (2 * x + 1) * den = 2 * (den * x) + den := by ring
  have e' (x : Nat) : 2 * x * den = 2 * (den * x) := by ring
  have e'' (x : Nat) : den * (x + 1) = den * x + den := by ring
  simp only [roundDiv, e, e'] at htie ⊢
  generalize num / den = k at *
  generalize num % den = r at *
  split at htie
  · rw [e''] at htie
    rw [if_pos ‹_›]
    omega
  · rw [if_neg ‹_›]
    omega

/-- The rounded integer is within half of one, and even when it is half of one away. -/
theorem roundDiv_near {num den : Nat} (h : 0 < den) :
    |(roundDiv num den : ℚ) - num / den| ≤ 1 / 2 ∧
    (|(roundDiv num den : ℚ) - num / den| = 1 / 2 → roundDiv num den % 2 = 0) := by
  have hden : (0 : ℚ) < den := by exact_mod_cast h
  obtain ⟨hlow, hhigh⟩ := roundDiv_bounds (num := num) h
  have heven := roundDiv_even_of_tie (num := num) h
  generalize roundDiv num den = k at *
  have hlow' : 2 * (num : ℚ) ≤ (2 * k + 1) * den := by exact_mod_cast hlow
  have hhigh' : 2 * (k : ℚ) * den ≤ 2 * num + den := by exact_mod_cast hhigh
  have hx : (num : ℚ) = num / den * den := (div_mul_cancel₀ _ hden.ne').symm
  constructor
  · rw [abs_le]
    constructor
    · rw [neg_le_sub_iff_le_add, div_le_iff₀ hden]
      linarith
    · rw [sub_le_iff_le_add, ← sub_le_iff_le_add', le_div_iff₀ hden]
      linarith
  · intro htie
    rcases (abs_eq (by norm_num)).1 htie with hup | hdown
    · have hk : (num : ℚ) / den = k - 1 / 2 := by linarith
      rw [hk] at hx
      refine heven (.inr ?_)
      exact_mod_cast (by linarith : 2 * (k : ℚ) * den = 2 * num + den)
    · have hk : (num : ℚ) / den = k + 1 / 2 := by linarith
      rw [hk] at hx
      refine heven (.inl ?_)
      exact_mod_cast (by linarith : 2 * (num : ℚ) = (2 * k + 1) * den)

/-- Of all integers the rounded one is nearest, and of two equally near ones it is the even one. -/
theorem roundDiv_nearest {num den : Nat} (h : 0 < den) (j : Nat) :
    |(roundDiv num den : ℚ) - num / den| ≤ |(j : ℚ) - num / den| ∧
    (|(j : ℚ) - num / den| = |(roundDiv num den : ℚ) - num / den| →
      j = roundDiv num den ∨ roundDiv num den % 2 = 0) := by
  obtain ⟨hnear, heven⟩ := roundDiv_near (num := num) h
  generalize roundDiv num den = k at *
  generalize (num : ℚ) / den = x at *
  by_cases hjk : j = k
  · subst hjk
    exact ⟨le_rfl, fun _ => .inl rfl⟩
  have hone : (1 : ℚ) ≤ |(j : ℚ) - k| := by
    have : (1 : ℤ) ≤ |(j : ℤ) - k| := Int.one_le_abs (by omega)
    exact_mod_cast this
  have htri : |(j : ℚ) - k| ≤ |(j : ℚ) - x| + |(k : ℚ) - x| := by
    rw [abs_sub_comm (k : ℚ) x]
    exact abs_sub_le _ _ _
  exact ⟨by linarith, fun htie => .inr (heven (by linarith))⟩

/-- The same among the multiples of `2^s`. -/
theorem roundDiv_nearest_scaled {num den : Nat} (h : 0 < den) (s j : Nat) :
    |(roundDiv num (den * 2 ^ s) : ℚ) * 2 ^ s - num / den| ≤ |(j : ℚ) * 2 ^ s - num / den| ∧
    (|(j : ℚ) * 2 ^ s - num / den| = |(roundDiv num (den * 2 ^ s) : ℚ) * 2 ^ s - num / den| →
      j = roundDiv num (den * 2 ^ s) ∨ roundDiv num (den * 2 ^ s) % 2 = 0) := by
  have hs : (0 : ℚ) < 2 ^ s := pow_pos two_pos s
  have hscale (i : Nat) : |(i : ℚ) * 2 ^ s - num / den| = |(i : ℚ) - num / (den * 2 ^ s : ℕ)| * 2 ^ s := by
    rw [← abs_of_pos hs, ← abs_mul, abs_of_pos hs, sub_mul, Nat.cast_mul, Nat.cast_pow, Nat.cast_ofNat,
      div_mul_eq_mul_div, mul_div_mul_right _ _ hs.ne']
  obtain ⟨hmin, htie⟩ := roundDiv_nearest (num := num) (Nat.mul_pos h (Nat.two_pow_pos s)) j
  rw [hscale, hscale]
  exact ⟨mul_le_mul_of_nonneg_right hmin hs.le, fun heq => htie (mul_right_cancel₀ hs.ne' heq)⟩

/-! ### The rounded magnitude bits are the nearest -/

/-- `roundMag` before its bound: the exponent is as large as it needs to be. -/
def roundBits (num den : Nat) : Nat :=
  dropBits (num / den) * 2 ^ 52 + roundDiv num (den * 2 ^ dropBits (num / den))

theorem roundMag_eq_min (num den : Nat) : roundMag num den = min (roundBits num den) (2047 * 2 ^ 52) := rfl

/-- `m` stands for the value nearest to `x`, and of two equally near ones for the one with even bits. -/
def IsNearestEven (x : ℚ) (m : Nat) : Prop :=
  ∀ n, |(magValue m : ℚ) - x| ≤ |(magValue n : ℚ) - x| ∧
    (|(magValue n : ℚ) - x| = |(magValue m : ℚ) - x| → n = m ∨ m % 2 = 0)

/-- After dropping, at most 53 bits are left, and exactly 53 when any were dropped. -/
theorem dropBits_bounds (q : Nat) : q < 2 ^ 53 * 2 ^ dropBits q ∧ (dropBits q = 0 ∨ 2 ^ 52 * 2 ^ dropBits q ≤ q) := by
  rw [dropBits, ← pow_add, ← pow_add]
  rcases Nat.lt_or_ge (Nat.log2 q) 53 with h | h
  · have hs : Nat.log2 q - 52 = 0 := by omega
    rw [hs]
    exact ⟨(Nat.lt_log2_self).trans_le (Nat.pow_le_pow_right two_pos (by omega)), .inl rfl⟩
  · have hq : q ≠ 0 := by
      rintro rfl
      simp at h
    have hs : 53 + (Nat.log2 q - 52) = Nat.log2 q + 1 := by omega
    have hs' : 52 + (Nat.log2 q - 52) = Nat.log2 q := by omega
    rw [hs, hs']
    exact ⟨Nat.lt_log2_self, .inr (Nat.log2_self_le hq)⟩

/-- What `roundBits` stands for: what is left after dropping, rounded to an integer. -/
theorem magValue_roundBits {num den : Nat} (h : 0 < den) :
    magValue (roundBits num den) =
      roundDiv num (den * 2 ^ dropBits (num / den)) * 2 ^ dropBits (num / den) := by
  obtain ⟨hlt, hle⟩ := dropBits_bounds (num / den)
  rw [roundBits]
  generalize dropBits (num / den) = s at *
  have hD : 0 < den * 2 ^ s := by positivity
  obtain ⟨hlow, hhigh⟩ := roundDiv_bounds (num := num) hD
  generalize roundDiv num (den * 2 ^ s) = k at *
  have hnum : num < 2 ^ 53 * (den * 2 ^ s) := by
    rw [Nat.div_lt_iff_lt_mul h] at hlt
    linarith
  refine magValue_scaled ?_ (hle.imp_right fun hle => ?_)
  · have : 2 * k * (den * 2 ^ s) < (2 * 2 ^ 53 + 1) * (den * 2 ^ s) := by linarith
    have := Nat.lt_of_mul_lt_mul_right this
    omega
  · rw [Nat.le_div_iff_mul_le h] at hle
    have : 2 * 2 ^ 52 * (den * 2 ^ s) ≤ (2 * k + 1) * (den * 2 ^ s) := by linarith
    have := Nat.le_of_mul_le_mul_right this hD
    omega

/-- With `s` bits dropped, a value that is no multiple of `2^s` is below `2^52 * 2^s`, itself at most the exact number;
so the multiples of `2^s` decide. -/
theorem roundBits_nearest {num den : Nat} (h : 0 < den) : IsNearestEven (num / den) (roundBits num den) := by
  intro n
  have hm := magValue_roundBits (num := num) h
  have hround := roundDiv_nearest_scaled (num := num) h (dropBits (num / den))
  have hparity : roundBits num den % 2 = roundDiv num (den * 2 ^ dropBits (num / den)) % 2 := by
    rw [roundBits]
    omega
  have hm' : (magValue (roundBits num den) : ℚ) =
      roundDiv num (den * 2 ^ dropBits (num / den)) * 2 ^ dropBits (num / den) := by exact_mod_cast hm
  rcases magValue_multiple_or_lt (dropBits (num / den)) n with ⟨j, hj⟩ | ⟨hpos, hlt⟩
  · have hj' : (magValue n : ℚ) = j * 2 ^ dropBits (num / den) := by exact_mod_cast hj
    obtain ⟨hmin, htie⟩ := hround j
    rw [hm', hj', hparity]
    refine ⟨hmin, fun heq => (htie heq).imp_left fun hjk => magValue_strictMono.injective ?_⟩
    rw [hj, hm, hjk]
  · have hx : (2 : ℚ) ^ 52 * 2 ^ dropBits (num / den) ≤ num / den := by
      refine le_trans ?_ Nat.cast_div_le
      exact_mod_cast (dropBits_bounds (num / den)).2.resolve_left hpos.ne'
    have hv : (magValue n : ℚ) < 2 ^ 52 * 2 ^ dropBits (num / den) := by exact_mod_cast hlt
    have hmin := (hround (2 ^ 52)).1
    have hcloser : |(magValue (roundBits num den) : ℚ) - num / den| < |(magValue n : ℚ) - num / den| := by
      rw [hm']
      refine hmin.trans_lt ?_
      rw [Nat.cast_pow, Nat.cast_ofNat, abs_of_nonpos (by linarith), abs_of_nonpos (by linarith)]
      linarith
    exact ⟨hcloser.le, fun heq => absurd heq hcloser.ne'⟩

/-! ### The overflow bound -/

/-- The largest finite magnitude bits; the next ones are an infinity's. -/
def maxBits : Nat := 2047 * 2 ^ 52 - 1

theorem magValue_maxBits : magValue maxBits = (2 ^ 53 - 1) * 2 ^ 2045 := by
  have h : maxBits = 2045 * 2 ^ 52 + (2 ^ 53 - 1) := by decide
  rw [h]
  exact magValue_scaled (by decide) (.inr (by decide))

theorem magValue_infinity : magValue (maxBits + 1) = 2 ^ 53 * 2 ^ 2045 := by
  have h : maxBits + 1 = 2045 * 2 ^ 52 + 2 ^ 53 := by decide
  rw [h]
  exact magValue_scaled le_rfl (.inr (by decide))

theorem overflowBound_pos : 0 < overflowBound := mul_pos (by norm_num) (pow_pos two_pos _)

/-- The overflow bound is half-way between the largest finite value and the next one. -/
theorem overflowBound_midpoint :
    2 * (overflowBound * 2 ^ ulpExp) = (magValue maxBits : ℚ) + magValue (maxBits + 1) := by
  have hpow : (2 : ℚ) ^ 2045 = 2 ^ 970 * (2 ^ ulpExp * 2) := by
    rw [← pow_succ, ← pow_add, ulpExp]
  rw [magValue_maxBits, magValue_infinity, Nat.cast_mul, Nat.cast_mul, Nat.cast_pow, Nat.cast_pow, Nat.cast_ofNat,
    hpow, overflowBound]
  generalize (2 : ℚ) ^ 970 = p
  generalize (2 : ℚ) ^ ulpExp = q
  norm_num
  ring

/-- Rounding with an unbounded exponent passes the largest finite value exactly from the overflow bound on. -/
theorem nearest_le_maxBits_iff {x : ℚ} {m : Nat} (hm : IsNearestEven x m) :
    m ≤ maxBits ↔ x < overflowBound * 2 ^ ulpExp := by
  have hmid := overflowBound_midpoint
  have hstep : (magValue maxBits : ℚ) < magValue (maxBits + 1) := by
    exact_mod_cast magValue_strictMono (Nat.lt_succ_self maxBits)
  generalize overflowBound * 2 ^ ulpExp = bound at *
  constructor
  · intro hle
    by_contra! hx
    have hmono : (magValue m : ℚ) ≤ magValue maxBits := by exact_mod_cast magValue_strictMono.monotone hle
    obtain ⟨hmin, htie⟩ := hm (maxBits + 1)
    rw [abs_of_nonpos (by linarith : (magValue m : ℚ) - x ≤ 0)] at hmin htie
    have habs : |(magValue (maxBits + 1) : ℚ) - x| ≤ x - magValue maxBits :=
      abs_le.2 ⟨by linarith, by linarith⟩
    have heq : (magValue m : ℚ) = magValue maxBits := by linarith
    have hmax : m = maxBits := magValue_strictMono.injective (by exact_mod_cast heq)
    have hodd : maxBits % 2 = 1 := by decide
    rcases htie (by linarith) with h | h
    · omega
    · rw [hmax] at h
      omega
  · intro hx
    by_contra! hgt
    have hmono : (magValue (maxBits + 1) : ℚ) ≤ magValue m := by exact_mod_cast magValue_strictMono.monotone hgt
    have hmin := (hm maxBits).1
    rw [abs_of_pos (by linarith : (0 : ℚ) < magValue m - x)] at hmin
    have hlt : |(magValue maxBits : ℚ) - x| < magValue (maxBits + 1) - x :=
      abs_lt.2 ⟨by linarith, by linarith⟩
    linarith

/-! ### Signs -/

/-- A magnitude with a sign bit. -/
def signed (s : Bool) (x : ℚ) : ℚ := if s then -x else x

@[simp] theorem abs_signed (s : Bool) (x : ℚ) : |signed s x| = |x| := by cases s <;> simp [signed]

theorem signed_neg_iff {s : Bool} {x : ℚ} (hx : 0 < x) : signed s x < 0 ↔ s = true := by
  cases s
  · simpa [signed] using hx.le
  · simpa [signed] using hx

theorem signed_mul (s t : Bool) (x y : ℚ) : signed s x * signed t y = signed (s != t) (x * y) := by
  cases s <;> cases t <;> simp [signed]

theorem signed_div (s t : Bool) (x y : ℚ) : signed s x / signed t y = signed (s != t) (x / y) := by
  cases s <;> cases t <;> simp [signed, neg_div, div_neg]

theorem abs_signed_sub_same (s : Bool) (x y : ℚ) : |signed s x - signed s y| = |x - y| := by
  cases s
  · rfl
  · rw [signed, signed, if_pos rfl, if_pos rfl, neg_sub_neg, abs_sub_comm]

theorem abs_signed_sub_other {s t : Bool} (h : t ≠ s) {x y : ℚ} (hx : 0 ≤ x) (hy : 0 ≤ y) :
    |signed t x - signed s y| = x + y := by
  obtain rfl : t = !s := by cases s <;> cases t <;> simp_all
  cases s
  · rw [signed, signed, Bool.not_false, if_pos rfl, if_neg Bool.false_ne_true, abs_of_nonpos (by linarith)]
    ring
  · rw [signed, signed, Bool.not_true, if_pos rfl, if_neg Bool.false_ne_true, abs_of_nonneg (by linarith)]
    ring

theorem toRat_eq_signed (a : F64) : toRat a = signed (fSign a) (fMag a / 2 ^ ulpExp) := by
  rw [toRat, fUnits, signed]
  split
  · rw [Int.cast_neg, neg_div, Int.cast_natCast]
  · rw [Int.cast_natCast]

theorem toRat_packF64 {s : Bool} {m : Nat} (h : m < 2 ^ 63) :
    toRat (packF64 s m) = signed s (magValue m / 2 ^ ulpExp) := by
  rw [toRat_eq_signed, fSign_packF64 h, ← magValue_magBits, magBits_packF64 h]

theorem even_fraction_packF64 {s : Bool} {m : Nat} (h : m < 2 ^ 63) (hm : m % 2 = 0) :
    (packF64 s m).getLsbD 0 = false := by
  rw [BitVec.getLsbD, packF64_toNat h, Nat.testBit_zero, decide_eq_false_iff_not]
  split <;> omega

/-! ### One rounding -/

theorem two_pow_ulpExp_pos : (0 : ℚ) < 2 ^ ulpExp := pow_pos two_pos _

/-- No finite pattern of either sign is nearer to a number than the one whose bits are nearest in magnitude. -/
theorem packF64_nearest {s : Bool} {x : ℚ} {m : Nat} (hx : 0 ≤ x) (hm : IsNearestEven x m) (h63 : m < 2 ^ 63)
    (c : F64) :
    let r := packF64 s m
    let z := signed s (x / 2 ^ ulpExp)
    |toRat r - z| ≤ |toRat c - z| ∧ (|toRat c - z| = |toRat r - z| → toRat c = toRat r ∨ r.getLsbD 0 = false) := by
  intro r z
  have hu := two_pow_ulpExp_pos
  have hdist (n : Nat) : |(magValue n : ℚ) / 2 ^ ulpExp - x / 2 ^ ulpExp| = |(magValue n : ℚ) - x| / 2 ^ ulpExp := by
    rw [← sub_div, abs_div, abs_of_pos hu]
  have hr : |toRat r - z| = |(magValue m : ℚ) - x| / 2 ^ ulpExp := by
    rw [toRat_packF64 h63, abs_signed_sub_same, hdist]
  have hc : toRat c = signed (fSign c) (magValue (magBits c) / 2 ^ ulpExp) := by
    rw [magValue_magBits, toRat_eq_signed]
  by_cases hsign : fSign c = s
  · obtain ⟨hmin, htie⟩ := hm (magBits c)
    rw [hr, hc, hsign, abs_signed_sub_same, hdist, toRat_packF64 h63]
    refine ⟨div_le_div_of_nonneg_right hmin hu.le, fun heq => ?_⟩
    exact (htie ((div_left_inj' hu.ne').1 heq)).imp (fun h => by rw [h]) (even_fraction_packF64 h63)
  · have hzero : magValue 0 = 0 := by decide
    obtain ⟨hmin, htie⟩ := hm 0
    rw [hzero, Nat.cast_zero, zero_sub, abs_neg, abs_of_nonneg hx] at hmin htie
    have hv : (0 : ℚ) ≤ magValue (magBits c) := Nat.cast_nonneg _
    rw [hr, hc, abs_signed_sub_other hsign (div_nonneg hv hu.le) (div_nonneg hx hu.le), ← add_div]
    refine ⟨div_le_div_of_nonneg_right (by linarith) hu.le, fun heq => .inr ?_⟩
    have heq' := (div_left_inj' hu.ne').1 heq
    refine even_fraction_packF64 h63 ?_
    rcases htie (by linarith) with rfl | heven
    · rfl
    · exact heven

/-- A packed `roundMag` is the exact number rounded once: this is the rounding of every operation. -/
theorem roundsTo_packF64 (s : Bool) (num : Nat) {den : Nat} (h : 0 < den) :
    RoundsTo (signed s (num / den / 2 ^ ulpExp)) (packF64 s (roundMag num den)) := by
  have hnearest := roundBits_nearest (num := num) h
  have hx : (0 : ℚ) ≤ num / den := by positivity
  have hu := two_pow_ulpExp_pos
  have habs : |signed s ((num : ℚ) / den / 2 ^ ulpExp)| = num / den / 2 ^ ulpExp := by
    rw [abs_signed, abs_of_nonneg (div_nonneg hx hu.le)]
  have hbound := nearest_le_maxBits_iff hnearest
  rw [← div_lt_iff₀ hu] at hbound
  have h63 := roundMag_lt num den
  rw [RoundsTo, habs]
  constructor
  · intro hlt
    have hle : roundBits num den ≤ maxBits := hbound.2 hlt
    have hbits : roundMag num den = roundBits num den := by
      rw [roundMag_eq_min]
      exact Nat.min_eq_left (hle.trans (by decide))
    rw [hbits] at h63 ⊢
    refine ⟨?_, fun c _ => packF64_nearest hx hnearest h63 c⟩
    rw [isFinite_iff_magBits, magBits_packF64 h63]
    exact Nat.lt_of_le_of_lt hle (by decide)
  · intro hge
    have hgt : maxBits < roundBits num den := Nat.lt_of_not_le fun hle => (hbound.1 hle).not_ge hge
    have hbits : roundMag num den = 2047 * 2 ^ 52 := by
      rw [roundMag_eq_min]
      exact Nat.min_eq_right (Nat.succ_le_of_lt hgt)
    have hpos : (0 : ℚ) < num / den / 2 ^ ulpExp := overflowBound_pos.trans_le hge
    rw [fSign_packF64 h63, signed_neg_iff hpos, hbits]
    exact ⟨isInf_infF64 s, Iff.rfl⟩

/-! ### The operations on finite numbers -/

theorem fadd_of_isFinite {a b : F64} (ha : isFinite a = true) (hb : isFinite b = true) :
    fadd a b = faddFinite a b := by
  simp [fadd, not_isNaN_of_isFinite, not_isInf_of_isFinite, ha, hb]

theorem fmul_of_isFinite {a b : F64} (ha : isFinite a = true) (hb : isFinite b = true) :
    fmul a b = packF64 (fSign a != fSign b) (roundMag (fMag a * fMag b) (2 ^ ulpExp)) := by
  simp [fmul, not_isNaN_of_isFinite, not_isInf_of_isFinite, ha, hb]

theorem fdiv_of_isFinite {a b : F64} (ha : isFinite a = true) (hb : isFinite b = true) (h0 : isZero b = false) :
    fdiv a b = packF64 (fSign a != fSign b) (roundMag (fMag a * 2 ^ ulpExp) (fMag b)) := by
  simp [fdiv, not_isNaN_of_isFinite, not_isInf_of_isFinite, ha, hb, h0]

theorem fMag_pos {b : F64} (hb : isFinite b = true) (h0 : isZero b = false) : 0 < fMag b :=
  Nat.pos_of_ne_zero fun h => by simp [isZero_iff_fMag.2 ⟨hb, h⟩] at h0

/-- An integer count of units as a signed magnitude. -/
theorem intCast_eq_signed (z : ℤ) (u : ℚ) : (z : ℚ) / u = signed (decide (z < 0)) ((z.natAbs : ℚ) / (1 : ℕ) / u) := by
  rw [Nat.cast_one, div_one, Nat.cast_natAbs, signed]
  by_cases hz : z < 0
  · rw [decide_eq_true hz, if_pos rfl, abs_of_neg hz, Int.cast_neg, neg_div, neg_neg]
  · rw [decide_eq_false hz, if_neg Bool.false_ne_true, abs_of_nonneg (not_lt.1 hz)]

/-- Settles O33: the sum is an integer count of units, and an exact zero is the number 0 under either sign. -/
theorem faddRoundsOnceToNearestEven : Obligations.FaddRoundsOnceToNearestEven := by
  intro a b ha hb
  have hsum : toRat a + toRat b = ((fUnits a + fUnits b : ℤ) : ℚ) / 2 ^ ulpExp := by
    rw [toRat, toRat, Int.cast_add, add_div]
  rw [hsum, fadd_of_isFinite ha hb, faddFinite]
  generalize fUnits a + fUnits b = z
  by_cases hz : z = 0
  · have hzero : ((z : ℤ) : ℚ) / 2 ^ ulpExp = signed (fSign a && fSign b) ((0 : ℕ) / (1 : ℕ) / 2 ^ ulpExp) := by
      simp [hz, signed]
    have hround := roundsTo_packF64 (fSign a && fSign b) 0 one_pos
    rw [roundMag_zero] at hround
    rw [hzero]
    simpa only [if_pos hz] using hround
  · rw [intCast_eq_signed]
    simpa only [if_neg hz] using roundsTo_packF64 (decide (z < 0)) z.natAbs one_pos

/-- Settles O34: the product of two counts of units is a count of `2^-1074` units. -/
theorem fmulRoundsOnceToNearestEven : Obligations.FmulRoundsOnceToNearestEven := by
  intro a b ha hb
  have hprod : toRat a * toRat b =
      signed (fSign a != fSign b) ((fMag a * fMag b : ℕ) / (2 ^ ulpExp : ℕ) / 2 ^ ulpExp) := by
    rw [toRat_eq_signed, toRat_eq_signed, signed_mul, div_mul_div_comm, div_div, Nat.cast_mul, Nat.cast_pow,
      Nat.cast_ofNat]
  rw [hprod, fmul_of_isFinite ha hb]
  exact roundsTo_packF64 _ _ (Nat.two_pow_pos _)

/-- Settles O35: the quotient of two counts of units, taken in units. -/
theorem fdivRoundsOnceToNearestEven : Obligations.FdivRoundsOnceToNearestEven := by
  intro a b ha hb h0
  have hu := two_pow_ulpExp_pos.ne'
  have hquot : toRat a / toRat b =
      signed (fSign a != fSign b) ((fMag a * 2 ^ ulpExp : ℕ) / (fMag b : ℕ) / 2 ^ ulpExp) := by
    rw [toRat_eq_signed, toRat_eq_signed, signed_div, div_div_div_cancel_right₀ hu, Nat.cast_mul, Nat.cast_pow,
      Nat.cast_ofNat, div_right_comm, mul_div_cancel_right₀ _ hu]
  rw [hquot, fdiv_of_isFinite ha hb h0]
  exact roundsTo_packF64 _ _ (fMag_pos hb h0)

end Sys2Proof.Machine
end

section
/-! What a command can do to the state, said once (10_state.md R22, R23; 30_encoding.md R54). A channel-addressed
command is a function of its own channel, the engine registers and the parameters; every other command answers, sets
the gain, reconfigures or zeroes the overlap buffers. -/

namespace Sys2Proof.Machine

/-! ### The channel-addressed commands as functions of their own channel -/

/-- `ChanCheck` over the channel and the block length (R63). -/
def ChannelState.check (L : Nat) (x : ChannelState) : Option Cause :=
  if x.inA.length ≠ x.inB.length then some .invQueue
  else if x.ovl.length ≠ L then some .invOverlap
  else none

theorem chanCheck_eq_check (s : State) (c : Chan) : chanCheck s c = (s.ch c).check s.blockLength := rfl

/-- What a channel-addressed command past its checks does: a fault, or the new channel and the data it answers. -/
def ownEffect (p : Config.Params) (e : EngineState) (x : ChannelState) :
    Instr → Except Cause (ChannelState × List Word64)
  | .push _ a b =>
    if exceeds p.inqCap (x.inA.length + 1) then .error .ovfInput else .ok (x.push (f64OfBits a) (f64OfBits b), [])
  | .proc _ =>
    if exceeds p.outqCap (x.outQ.length + blockCount x.inA.length e.blockLength * e.blockLength) then
      .error .ovfOutput
    else .ok (processAvailable (kernelOf p) (windowOf p) e.blockLength e.gain x, [])
  | .drain _ n => .ok (x.drain (immNat n), (x.drained (immNat n)).map bitsF64)
  | .setblk _ | .setexp _ | .setgain _ | .reset | .rdcsr _ _ => .ok (x, [])

/-- The same with `ChanCheck` before it. -/
def channelResult (p : Config.Params) (e : EngineState) (x : ChannelState) (i : Instr) :
    Except Cause (ChannelState × List Word64) :=
  match x.check e.blockLength with
  | some cause => .error cause
  | none => ownEffect p e x i

/-- The end of a channel-addressed command, given its result. -/
def conclude (s : State) (c : Chan) : Except Cause (ChannelState × List Word64) → Result
  | .error cause => raiseFault s cause c
  | .ok (y, d) => respondOk (s.setCh c y) d

theorem conclude_ite (s : State) (c : Chan) (full : Prop) [Decidable full] (cause : Cause) (y : ChannelState)
    (d : List Word64) :
    conclude s c (if full then .error cause else .ok (y, d)) =
      if full then raiseFault s cause c else respondOk (s.setCh c y) d := by
  split <;> rfl

theorem channelCommand_conclude (s : State) (c : Chan) (i : Instr) :
    channelCommand s c (conclude s c (ownEffect s.cfg s.eng (s.ch c) i)) =
      whenUnfaulted s (conclude s c (channelResult s.cfg s.eng (s.ch c) i)) := by
  have hL : s.eng.blockLength = s.blockLength := rfl
  rw [channelCommand, chanCheck_eq_check, channelResult, hL]
  cases (s.ch c).check s.blockLength <;> rfl

/-- A channel-addressed command reads and writes no channel but its own (R23). -/
theorem exec_addressed {i : Instr} {c : Chan} (hi : addressed i = some c) (s : State) :
    exec i s = whenUnfaulted s (conclude s c (channelResult s.cfg s.eng (s.ch c) i)) := by
  rw [← channelCommand_conclude]
  cases i with
  | push _ _ _ | proc _ =>
    cases hi
    rw [ownEffect, conclude_ite]
    rfl
  | drain _ _ =>
    cases hi
    rfl
  | setblk _ | setexp _ | setgain _ | reset | rdcsr _ _ => cases hi

theorem channelResult_readdress (p : Config.Params) (e : EngineState) (x : ChannelState) (d : Chan) (i : Instr) :
    channelResult p e x (readdress d i) = channelResult p e x i := by
  cases i <;> rfl

theorem addressed_readdress {i : Instr} {c : Chan} (hi : addressed i = some c) (d : Chan) :
    addressed (readdress d i) = some d := by
  cases i <;> cases hi <;> rfl

theorem readdress_self {i : Instr} {c : Chan} (hi : addressed i = some c) : readdress c i = i := by
  cases i <;> cases hi <;> rfl

theorem ownEffect_of_channelResult {p : Config.Params} {e : EngineState} {x : ChannelState} {i : Instr}
    {r : ChannelState × List Word64} (h : channelResult p e x i = .ok r) : ownEffect p e x i = .ok r := by
  unfold channelResult at h
  split at h
  · cases h
  · exact h

section
variable {p : Config.Params} {e : EngineState} {x y : ChannelState} {d : List Word64}

theorem ownEffect_push {c : Chan} {a b : F64} (h : ownEffect p e x (.push c a b) = .ok (y, d)) :
    Within p.inqCap (x.inA.length + 1) ∧ y = x.push a b := by
  rw [ownEffect] at h
  split at h
  · cases h
  · cases h
    exact ⟨exceeds_eq_false.1 (Bool.eq_false_iff.2 ‹_›), rfl⟩

theorem ownEffect_proc {c : Chan} (h : ownEffect p e x (.proc c) = .ok (y, d)) :
    Within p.outqCap (x.outQ.length + blockCount x.inA.length e.blockLength * e.blockLength) ∧
      y = processAvailable (kernelOf p) (windowOf p) e.blockLength e.gain x := by
  rw [ownEffect] at h
  split at h
  · cases h
  · cases h
    exact ⟨exceeds_eq_false.1 (Bool.eq_false_iff.2 ‹_›), rfl⟩

theorem ownEffect_drain {c : Chan} {n : Imm} (h : ownEffect p e x (.drain c n) = .ok (y, d)) :
    y = x.drain n.toNat := by
  cases h
  rfl

end

/-! ### Every command -/

/-- What a command that answers a next state has done. -/
inductive Effect (s : State) (i : Instr) : State → Prop
  /-- Only an answer: a refusal, a rejection, or a register read. -/
  | answered (st : Status) (d : List Word64) : Effect s i (s.answer st d)
  /-- A fault of the addressed channel is raised. -/
  | raised (c : Chan) (cause : Cause) (hi : addressed i = some c) (hf : Unfaulted s) :
      Effect s i ((s.setFault (some (cause, c))).answer .fault [])
  /-- The addressed channel is written. -/
  | channel (c : Chan) (y : ChannelState) (d : List Word64) (hi : addressed i = some c) (hf : Unfaulted s)
      (hy : ownEffect s.cfg s.eng (s.ch c) i = .ok (y, d)) : Effect s i ((s.setCh c y).answer .ok d)
  /-- The block length is set and the overlap buffers are zeroed. -/
  | reconfigured (k : Fin 13) (hi : (∃ len, i = .setblk len) ∨ ∃ e, i = .setexp e) (hf : Unfaulted s) :
      Effect s i ((s.reconfigure k).answer .ok [])
  /-- The gain is set from a finite operand. -/
  | gainSet (p : F64) (hi : i = .setgain p) (hf : Unfaulted s) (hp : isFinite p = true) :
      Effect s i ((s.setGain (gainOf p)).answer .ok [])
  /-- The overlap buffers are zeroed. -/
  | overlapsZeroed (hi : i = .reset) (hf : Unfaulted s) : Effect s i (s.zeroOverlaps.answer .ok [])

theorem effect_of_whenUnfaulted {s t : State} {i : Instr} {body : Result}
    (hbody : Unfaulted s → body = .next t → Effect s i t) (h : whenUnfaulted s body = .next t) : Effect s i t := by
  rcases whenUnfaulted_cases h with ⟨_, _, rfl⟩ | ⟨hf, hb⟩
  · exact .answered _ _
  · exact hbody hf hb

/-- A command that rejects an operand which is not legal. -/
theorem effect_of_operandCheck {s t u : State} {i : Instr} {legal : Bool}
    (hlegal : legal = true → Unfaulted s → Effect s i (u.answer .ok []))
    (h : whenUnfaulted s (if legal then respondOk u [] else reject s .cfgErr) = .next t) : Effect s i t := by
  refine effect_of_whenUnfaulted (fun hf hb => ?_) h
  cases legal <;> cases hb
  · exact .answered _ _
  · exact hlegal rfl hf

theorem effect_of_addressed {s t : State} {i : Instr} {c : Chan} (hi : addressed i = some c)
    (h : exec i s = .next t) : Effect s i t := by
  rw [exec_addressed hi] at h
  refine effect_of_whenUnfaulted (fun hf hb => ?_) h
  cases hr : channelResult s.cfg s.eng (s.ch c) i with
  | error cause =>
    rw [hr] at hb
    cases hb
    exact .raised c cause hi hf
  | ok r =>
    rw [hr] at hb
    cases hb
    exact .channel c r.1 r.2 hi hf (ownEffect_of_channelResult hr)

/-- The inversion lemma of `exec`. -/
theorem effect_of_exec {s t : State} {i : Instr} (h : exec i s = .next t) : Effect s i t := by
  cases i with
  | push _ _ _ | proc _ | drain _ _ => exact effect_of_addressed rfl h
  | setblk len => exact effect_of_operandCheck (fun _ hf => .reconfigured _ (.inl ⟨len, rfl⟩) hf) h
  | setexp e => exact effect_of_operandCheck (fun _ hf => .reconfigured _ (.inr ⟨e, rfl⟩) hf) h
  | setgain p => exact effect_of_operandCheck (fun hp hf => .gainSet p rfl hf hp) h
  | reset =>
    refine effect_of_whenUnfaulted (fun hf hb => ?_) h
    cases hb
    exact .overlapsZeroed rfl hf
  | rdcsr c csr =>
    simp only [exec, execRdcsr] at h
    split at h <;> cases h <;> exact .answered _ _

/-- A command changes nothing of a faulted block (R124). -/
theorem Effect.block_of_faulted {s t : State} {i : Instr} {f : Cause × Chan} (h : Effect s i t)
    (hs : s.eng.fault = some f) : t.block = s.block := by
  cases h with
  | answered => rfl
  | raised _ _ _ hf | channel _ _ _ _ hf | reconfigured _ _ hf | gainSet _ _ hf | overlapsZeroed _ hf =>
    cases hs.symm.trans hf

/-! ### The step -/

/-- The inversion lemma of `step` (R54; logs 1, 10). -/
theorem step_cases {s t : State} (h : step s = .next t) :
    (s.input = [] ∧ t = s) ∨
    (∃ rest, s.input = .hardwareReset :: rest ∧
      t = { s with block := BlockState.init s.cfg, input := rest }) ∨
    (∃ p rest, s.input = .packet p :: rest ∧
      ((∃ i, decode p = .ok i ∧ exec i { s with input := rest } = .next t) ∨
        ((∃ why, decode p = .error why) ∧ t = { s with input := rest }.answer .illegal []))) := by
  cases hin : s.input with
  | nil =>
    rw [step_nil hin] at h
    cases h
    exact .inl ⟨rfl, rfl⟩
  | cons x rest =>
    cases x with
    | hardwareReset =>
      rw [step_reset hin] at h
      cases h
      exact .inr (.inl ⟨rest, rfl, rfl⟩)
    | packet p =>
      refine .inr (.inr ⟨p, rest, rfl, ?_⟩)
      cases hd : decode p with
      | ok i =>
        simp only [step, takeInput_cons hin, hd] at h
        exact .inl ⟨i, rfl, h⟩
      | error why =>
        rw [step_illegal hin hd] at h
        cases h
        exact .inr ⟨⟨why, rfl⟩, rfl⟩

end Sys2Proof.Machine
end

section
/-! The invariant at reset and under every step (O3, O4). -/

namespace Sys2Proof.Machine

open Config (Kernel Window)

/-! ### The invariant, channel by channel -/

/-- The part of the invariant that speaks of one channel. -/
structure ChannelInv (p : Config.Params) (L : Nat) (x : ChannelState) : Prop where
  queues : x.inA.length = x.inB.length
  overlap : x.ovl.length = L
  inputFits : Within p.inqCap x.inA.length
  outputFits : Within p.outqCap x.outQ.length
  latency : x.lat ≤ Config.maxNFrames

/-- `IB` needs no hypothesis: no other length can be stored (R14). -/
theorem lengthLegal (s : State) : LengthLegal s :=
  ⟨s.eng.blkExp.val + 1, Nat.le_add_left _ _, s.eng.blkExp.isLt, rfl⟩

theorem inv_iff {s : State} :
    Inv s ↔ s.cfg.Legal ∧ isFinite s.eng.gain = true ∧ ∀ c, ChannelInv s.cfg s.blockLength (s.ch c) := by
  constructor
  · intro h
    exact ⟨h.legal, h.gainFinite,
      fun c => ⟨h.queues c, h.overlap c, h.inputFits c, h.outputFits c, h.latency c⟩⟩
  · rintro ⟨hlegal, hgain, hch⟩
    exact ⟨hlegal, lengthLegal s, hgain, fun c => (hch c).queues, fun c => (hch c).overlap,
      fun c => (hch c).inputFits, fun c => (hch c).outputFits, fun c => (hch c).latency⟩

/-- The invariant does not speak of the ports. -/
theorem Inv.of_block {s t : State} (h : Inv s) (hb : t.block = s.block) (hc : t.cfg = s.cfg) : Inv t := by
  obtain ⟨hlegal, hgain, hch⟩ := inv_iff.1 h
  obtain ⟨_, _, _, _⟩ := t
  subst hb hc
  exact inv_iff.2 ⟨hlegal, hgain, hch⟩

section
variable {p : Config.Params} {L : Nat} {x : ChannelState}

theorem channelInv_init (p : Config.Params) (L : Nat) : ChannelInv p L (ChannelState.init L) where
  queues := rfl
  overlap := length_zeros L
  inputFits := fun _ _ => Nat.zero_le _
  outputFits := fun _ _ => Nat.zero_le _
  latency := Nat.zero_le _

/-- The invariant of the block at hardware reset, whatever the ports hold. -/
theorem inv_of_init {s : State} (hp : s.cfg.Legal) (hb : s.block = BlockState.init s.cfg) : Inv s := by
  refine inv_iff.2 ⟨hp, ?_, fun c => ?_⟩
  · have hgain : s.eng.gain = Config.resetGain := by
      rw [State.eng, hb]
      rfl
    rw [hgain]
    decide
  · have hch : s.ch c = ChannelState.init s.blockLength := by
      rw [State.ch, State.blockLength, State.eng, hb]
      cases c <;> rfl
    rw [hch]
    exact channelInv_init _ _

theorem ChannelInv.zeroOvl (h : ChannelInv p L x) (len : Nat) : ChannelInv p len (x.zeroOvl len) :=
  ⟨h.queues, length_zeros len, h.inputFits, h.outputFits, h.latency⟩

theorem ChannelInv.push (h : ChannelInv p L x) (hfit : Within p.inqCap (x.inA.length + 1)) (a b : F64) :
    ChannelInv p L (x.push a b) where
  queues := by simp [h.queues]
  overlap := h.overlap
  inputFits := by simpa using hfit
  outputFits := h.outputFits
  latency := h.latency

theorem ChannelInv.drain (h : ChannelInv p L x) (n : Imm) : ChannelInv p L (x.drain n.toNat) where
  queues := h.queues
  overlap := h.overlap
  inputFits := h.inputFits
  outputFits := fun k hk => by
    have := h.outputFits k hk
    simp only [ChannelState.drain_outQ, List.length_drop]
    omega
  latency := by
    have := n.isLt
    simp only [ChannelState.drain_lat, ChannelState.shortfall, Config.maxNFrames]
    omega

end

/-! ### Turns of the loop of `PROC` -/

section
variable (K : Kernel) (W : Window) (L : Nat) (g : F64) (n : Nat) (x : ChannelState)

theorem iterate_processBlock_inA : ((processBlock K W L g)^[n] x).inA = x.inA.drop (n * L) := by
  induction n generalizing x with
  | zero => simp
  | succ n ih => rw [Function.iterate_succ_apply, ih, processBlock_inA, List.drop_drop, Nat.succ_mul, Nat.add_comm]

theorem iterate_processBlock_inB : ((processBlock K W L g)^[n] x).inB = x.inB.drop (n * L) := by
  induction n generalizing x with
  | zero => simp
  | succ n ih => rw [Function.iterate_succ_apply, ih, processBlock_inB, List.drop_drop, Nat.succ_mul, Nat.add_comm]

theorem iterate_processBlock_lat : ((processBlock K W L g)^[n] x).lat = x.lat := by
  induction n generalizing x with
  | zero => rfl
  | succ n ih => rw [Function.iterate_succ_apply, ih, processBlock_lat]

variable {x}

theorem length_iterate_processBlock_ovl (h : x.ovl.length = L) : ((processBlock K W L g)^[n] x).ovl.length = L := by
  induction n generalizing x with
  | zero => exact h
  | succ n ih => exact ih (length_processBlock_ovl K W L g x)

theorem length_iterate_processBlock_outQ (h : x.ovl.length = L) :
    ((processBlock K W L g)^[n] x).outQ.length = x.outQ.length + n * L := by
  induction n generalizing x with
  | zero => simp
  | succ n ih =>
    rw [Function.iterate_succ_apply, ih (length_processBlock_ovl K W L g x), length_processBlock_outQ K W L g x h,
      Nat.succ_mul]
    omega

end

section
variable {p : Config.Params} {L : Nat} {x : ChannelState}

/-- `PROC` grows the output by exactly what its capacity test counts. -/
theorem ChannelInv.processAvailable (h : ChannelInv p L x) (K : Kernel) (W : Window) (g : F64) (hL : 0 < L)
    (hfit : Within p.outqCap (x.outQ.length + blockCount x.inA.length L * L)) :
    ChannelInv p L (processAvailable K W L g x) := by
  rw [processAvailable_eq_iterate K W g hL]
  constructor
  case queues => simp [iterate_processBlock_inA, iterate_processBlock_inB, h.queues]
  case overlap => exact length_iterate_processBlock_ovl K W L g _ h.overlap
  case inputFits =>
    intro k hk
    have := h.inputFits k hk
    rw [iterate_processBlock_inA, List.length_drop]
    omega
  case outputFits => rwa [length_iterate_processBlock_outQ K W L g _ h.overlap]
  case latency =>
    rw [iterate_processBlock_lat]
    exact h.latency

theorem blockLength_pos (e : EngineState) : 0 < e.blockLength := Nat.two_pow_pos _

/-- A channel-addressed command keeps its channel's part of the invariant. -/
theorem ChannelInv.ownEffect {e : EngineState} {y : ChannelState} {d : List Word64} {i : Instr}
    (h : ChannelInv p e.blockLength x) (hy : ownEffect p e x i = .ok (y, d)) : ChannelInv p e.blockLength y := by
  cases i with
  | push c a b =>
    obtain ⟨hfit, rfl⟩ := ownEffect_push hy
    exact h.push hfit a b
  | proc c =>
    obtain ⟨hfit, rfl⟩ := ownEffect_proc hy
    exact h.processAvailable _ _ _ (blockLength_pos e) hfit
  | drain c n =>
    obtain rfl := ownEffect_drain hy
    exact h.drain n
  | setblk _ | setexp _ | setgain _ | reset | rdcsr _ _ =>
    cases hy
    exact h

end

/-! ### The gain stays finite -/

/-- A finite pattern stands for a number below the overflow bound. -/
theorem abs_toRat_lt_overflowBound {a : F64} (ha : isFinite a = true) : |toRat a| < overflowBound := by
  have hbits : magBits a ≤ maxBits := Nat.le_pred_of_lt (isFinite_iff_magBits.1 ha)
  have hmono : (magValue (magBits a) : ℚ) ≤ magValue maxBits := by
    exact_mod_cast magValue_strictMono.monotone hbits
  have hstep : (magValue maxBits : ℚ) < magValue (maxBits + 1) := by
    exact_mod_cast magValue_strictMono (Nat.lt_succ_self maxBits)
  have hmid := overflowBound_midpoint
  have hu := two_pow_ulpExp_pos
  rw [toRat_eq_signed, abs_signed, abs_of_nonneg (div_nonneg (Nat.cast_nonneg _) hu.le), div_lt_iff₀ hu,
    ← magValue_magBits]
  linarith

/-- A division that does not make the magnitude larger cannot overflow. -/
theorem isFinite_fdiv {a b : F64} (ha : isFinite a = true) (hb : isFinite b = true) (h0 : isZero b = false)
    (h1 : 1 ≤ |toRat b|) : isFinite (fdiv a b) = true := by
  have hquot : |toRat a / toRat b| < overflowBound := by
    rw [abs_div]
    exact (div_le_self (abs_nonneg _) h1).trans_lt (abs_toRat_lt_overflowBound ha)
  exact ((fdivRoundsOnceToNearestEven a b ha hb h0).1 hquot).1

theorem one_le_abs_toRat_gainDiv : 1 ≤ |toRat Config.gainDiv| := by
  have hu := two_pow_ulpExp_pos
  have hmag : 2 ^ ulpExp ≤ fMag Config.gainDiv := by decide +kernel
  have hmag' : (2 : ℚ) ^ ulpExp ≤ fMag Config.gainDiv := by exact_mod_cast hmag
  rw [toRat_eq_signed, abs_signed, abs_of_nonneg (div_nonneg (Nat.cast_nonneg _) hu.le), one_le_div hu]
  exact hmag'

theorem isFinite_gainOf {p : F64} (hp : isFinite p = true) : isFinite (gainOf p) = true :=
  isFinite_fdiv hp (by decide) (by decide) one_le_abs_toRat_gainDiv

/-! ### Every command and every step -/

/-- Every command keeps the invariant. -/
theorem Effect.inv {s t : State} {i : Instr} (h : Effect s i t) (hs : Inv s) : Inv t := by
  obtain ⟨hlegal, hgain, hch⟩ := inv_iff.1 hs
  cases h with
  | answered st d => exact hs.of_block rfl rfl
  | raised c cause hi hf =>
    refine inv_iff.2 ⟨hlegal, hgain, fun e => ?_⟩
    simpa using hch e
  | channel c y d hi hf hy =>
    refine inv_iff.2 ⟨hlegal, by simpa using hgain, fun e => ?_⟩
    simp only [State.answer_cfg, State.setCh_cfg, State.answer_blockLength, State.setCh_blockLength,
      State.answer_ch, State.setCh_ch]
    split
    · exact (hch c).ownEffect hy
    · exact hch e
  | reconfigured k hi hf =>
    refine inv_iff.2 ⟨hlegal, by simpa using hgain, fun e => ?_⟩
    simpa using (hch e).zeroOvl (2 ^ (k.val + 1))
  | gainSet p hi hf hp =>
    refine inv_iff.2 ⟨hlegal, isFinite_gainOf hp, fun e => ?_⟩
    simpa using hch e
  | overlapsZeroed hi hf =>
    refine inv_iff.2 ⟨hlegal, hgain, fun e => ?_⟩
    simpa using (hch e).zeroOvl s.blockLength

/-- Settles O3. -/
theorem invariantHoldsAfterReset : Obligations.InvariantHoldsAfterReset := by
  have hinit (p : Config.Params) (hp : p.Legal) : Inv (State.init p) := inv_of_init hp rfl
  exact ⟨hinit, hinit _ (by simp [Config.Params.Legal, Config.Params.default])⟩

/-- Settles O4: by the cases of a step and the effect of its command. -/
theorem stepKeepsTheInvariant : Obligations.StepKeepsTheInvariant := by
  intro s t hs hstep
  have htaken (rest : List HostInput) : Inv { s with input := rest } := hs.of_block rfl rfl
  rcases step_cases hstep with ⟨-, rfl⟩ | ⟨rest, -, rfl⟩ | ⟨p, rest, -, ⟨i, -, hexec⟩ | ⟨-, rfl⟩⟩
  · exact hs
  · exact inv_of_init hs.legal rfl
  · exact (effect_of_exec hexec).inv (htaken rest)
  · exact hs.of_block rfl rfl

end Sys2Proof.Machine
end

section
/-! Which command writes and reads which state (O25, O26, O53). -/

namespace Sys2Proof.Machine

/-! ### Confinement and commutation -/

/-- What a channel-addressed command leaves alone (R23). -/
theorem exec_addressed_frame {s t : State} {i : Instr} {c : Chan} (hi : addressed i = some c)
    (h : exec i s = .next t) :
    (∀ d, d ≠ c → t.ch d = s.ch d) ∧ t.eng.blkExp = s.eng.blkExp ∧ t.eng.gain = s.eng.gain ∧
    t.cfg = s.cfg ∧ t.input = s.input ∧ (t.eng.fault = s.eng.fault ∨ ∃ cause, t.eng.fault = some (cause, c)) := by
  cases effect_of_exec h with
  | answered st d => simp
  | raised c' cause hi' hf =>
    obtain rfl : c' = c := Option.some.inj (hi'.symm.trans hi)
    simp
  | channel c' y d hi' hf hy =>
    obtain rfl : c' = c := Option.some.inj (hi'.symm.trans hi)
    simp +contextual
  | reconfigured k hi' hf => rcases hi' with ⟨_, rfl⟩ | ⟨_, rfl⟩ <;> cases hi
  | gainSet p hi' hf hp =>
    subst hi'
    cases hi
  | overlapsZeroed hi' hf =>
    subst hi'
    cases hi

/-- What a channel-addressed command reads (R23): from equal channels, engines and parameters it does the same. -/
theorem exec_addressed_congr {s s' t t' : State} {i : Instr} {c d : Chan} (hi : addressed i = some c)
    (hch : s'.ch d = s.ch c) (heng : s'.eng = s.eng) (hcfg : s'.cfg = s.cfg)
    (h : exec i s = .next t) (h' : exec (readdress d i) s' = .next t') :
    t'.ch d = t.ch c ∧ t'.eng.fault.map Prod.fst = t.eng.fault.map Prod.fst ∧
    ∃ r, t.responses = s.responses ++ [r] ∧ t'.responses = s'.responses ++ [r] := by
  rw [exec_addressed hi] at h
  rw [exec_addressed (addressed_readdress hi d), channelResult_readdress, hch, heng, hcfg] at h'
  cases hf : s.eng.fault with
  | some f =>
    rw [whenUnfaulted_some hf] at h
    rw [whenUnfaulted_some (heng ▸ hf)] at h'
    cases h
    cases h'
    simp [hch, heng]
  | none =>
    rw [whenUnfaulted_none hf] at h
    rw [whenUnfaulted_none (heng ▸ hf)] at h'
    cases hr : channelResult s.cfg s.eng (s.ch c) i with
    | error cause =>
      rw [hr] at h h'
      cases h
      cases h'
      simp [hch]
    | ok r =>
      rw [hr] at h h'
      cases h
      cases h'
      simp [heng]

/-- Settles O25. -/
theorem channelCommandsAreConfinedToTheirChannel : Obligations.ChannelCommandsAreConfinedToTheirChannel :=
  ⟨fun _ _ _ _ hi h => exec_addressed_frame hi h,
    fun _ _ _ _ _ _ _ hi hch heng hcfg h h' => exec_addressed_congr hi hch heng hcfg h h'⟩

/-- A channel-addressed command that leaves no fault has not changed the engine: a recorded fault stays. -/
theorem exec_addressed_eng {s t : State} {i : Instr} {c : Chan} (hi : addressed i = some c)
    (h : exec i s = .next t) (ht : Unfaulted t) : t.eng = s.eng := by
  obtain ⟨-, hexp, hgain, -, -, hfault⟩ := exec_addressed_frame hi h
  have hfault' : t.eng.fault = s.eng.fault := by
    rcases hfault with hsame | ⟨cause, hraised⟩
    · exact hsame
    · cases ht.symm.trans hraised
  cases hs : s.eng
  cases ht' : t.eng
  simp_all

/-- Two commands on different channels, in one order: each channel ends as its own command leaves it. -/
theorem exec_addressed_exec_addressed {s t u t' : State} {i j : Instr} {c d : Chan} (hi : addressed i = some c)
    (hj : addressed j = some d) (hcd : c ≠ d) (h : exec i s = .next t) (h' : exec j t = .next u) (hu : Unfaulted u)
    (hs : exec j s = .next t') : u.eng = s.eng ∧ u.ch c = t.ch c ∧ u.ch d = t'.ch d := by
  have hut : u.eng = t.eng := exec_addressed_eng hj h' hu
  have hts : t.eng = s.eng := exec_addressed_eng hi h (by rw [Unfaulted, ← hut]; exact hu)
  obtain ⟨hframe, -, -, hcfg, -, -⟩ := exec_addressed_frame hi h
  have hc : u.ch c = t.ch c := (exec_addressed_frame hj h').1 c hcd
  rw [← readdress_self hj] at h'
  exact ⟨hut.trans hts, hc, (exec_addressed_congr hj (hframe d hcd.symm) hts hcfg hs h').1⟩

/-- Settles O26: in either order each channel ends as its own command leaves it. -/
theorem commandsOnDifferentChannelsCommute : Obligations.CommandsOnDifferentChannelsCommute := by
  intro s t u t' u' i j c d hi hj hcd hit hju hu hjt hiu hu'
  obtain ⟨heng, hc, hd⟩ := exec_addressed_exec_addressed hi hj hcd hit hju hu hjt
  obtain ⟨heng', hd', hc'⟩ := exec_addressed_exec_addressed hj hi hcd.symm hjt hiu hu' hit
  refine BlockState.ext_ch (heng'.trans heng.symm) fun e => ?_
  by_cases he : e = c
  · subst he
    exact hc'.trans hc.symm
  · obtain rfl : e = d := by cases c <;> cases d <;> cases e <;> simp_all
    exact hd'.trans hd.symm

end Sys2Proof.Machine
end

section
/-! Which command writes which state (O53): the table of R22, read off the effect of each command. -/

namespace Sys2Proof.Machine

/-- The fields of its channel that a channel-addressed command leaves alone (R22). -/
theorem ownEffect_frame {p : Config.Params} {e : EngineState} {x y : ChannelState} {d : List Word64} {i : Instr}
    {c : Chan} (hi : addressed i = some c) (hy : ownEffect p e x i = .ok (y, d)) :
    (y.inA ≠ x.inA ∨ y.inB ≠ x.inB → (∃ a b, i = .push c a b) ∨ i = .proc c) ∧
    (y.ovl ≠ x.ovl → i = .proc c) ∧ (y.outQ ≠ x.outQ → i = .proc c ∨ ∃ n, i = .drain c n) ∧
    (y.lat ≠ x.lat → ∃ n, i = .drain c n) := by
  cases i with
  | push c' a b =>
    cases hi
    obtain ⟨-, rfl⟩ := ownEffect_push hy
    simp
  | proc c' =>
    cases hi
    obtain ⟨-, rfl⟩ := ownEffect_proc hy
    have hlat : (processAvailable (kernelOf p) (windowOf p) e.blockLength e.gain x).lat = x.lat := by
      rw [processAvailable_eq_iterate _ _ _ (blockLength_pos e), iterate_processBlock_lat]
    simp [hlat]
  | drain c' n =>
    cases hi
    obtain rfl := ownEffect_drain hy
    simp
  | setblk _ | setexp _ | setgain _ | reset | rdcsr _ _ => cases hi

theorem addressed_eq_some {i : Instr} {c : Chan} (hi : addressed i = some c) :
    (∃ c a b, i = .push c a b) ∨ (∃ c, i = .proc c) ∨ ∃ c n, i = .drain c n := by
  cases i <;> simp_all [addressed]

/-- Settles O53: by the effect of the command. -/
theorem onlyTheMarkedCommandsWriteEachState : Obligations.OnlyTheMarkedCommandsWriteEachState := by
  intro s t i h
  cases effect_of_exec h with
  | answered st d => simp
  | raised c cause hi hf =>
    simp only [State.answer_blockLength, State.setFault_blockLength, State.answer_eng, State.setFault_eng,
      State.answer_ch, State.setFault_ch]
    simpa using fun _ => ⟨hf, addressed_eq_some hi⟩
  | channel c y d hi hf hy =>
    refine ⟨by simp, by simp, by simp, fun e => ?_⟩
    by_cases he : e = c
    · subst he
      obtain ⟨hin, hovl, hout, hlat⟩ := ownEffect_frame hi hy
      simp only [State.answer_ch, State.setCh_ch, if_pos]
      exact ⟨hin, fun hne => .inl (hovl hne), hout, hlat⟩
    · simp [he]
  | reconfigured k hi hf =>
    refine ⟨fun _ => hi, by simp, by simp, fun c => ⟨by simp, fun _ => ?_, by simp, by simp⟩⟩
    exact .inr (hi.imp_right .inl)
  | gainSet p hi hf hp =>
    refine ⟨by simp, fun _ => ⟨p, hi⟩, by simp, by simp⟩
  | overlapsZeroed hi hf =>
    refine ⟨by simp, by simp, by simp, fun c => ⟨by simp, fun _ => ?_, by simp, by simp⟩⟩
    exact .inr (.inr (.inr hi))

end Sys2Proof.Machine
end

section
/-! The register read-out (O48) and the `FAULT` register (O50). -/

namespace Sys2Proof.Machine

/-! ### Reading a register -/

/-- `RDCSR` of a register answers the register's value, in every state (R113). -/
theorem reads_csrValue {c : Chan} {csr : Imm} {r : Csr} (s : State) (hr : csrSelect c csr = some r) :
    Reads s c csr (csrValue s c r) := by
  simp only [Reads, exec, execRdcsr, hr]
  rfl

/-- A register that shows a number below `2^64` reads as that number. -/
theorem reads_number {s : State} {c : Chan} {csr : Imm} {r : Csr} {n : Nat} (hr : csrSelect c csr = some r)
    (hv : csrValue s c r = numberWord n) (hn : n < 2 ^ 64) : Reads s c csr (BitVec.ofNat 64 n) := by
  have h := reads_csrValue s hr
  rwa [hv, numberWord, if_pos hn] at h

theorem blockLength_le (s : State) : s.blockLength ≤ Config.maxBlock :=
  Nat.pow_le_pow_right (by decide) (by have := s.eng.blkExp.isLt; omega : s.eng.blkExp.val + 1 ≤ 13)

/-- The two registers that show a capacity (R31): the capacity itself, or all ones where it is unbounded. -/
theorem reads_capacity {s : State} {csr : Imm} {r : Csr} {cap : Option Nat} (hr : csrSelect .c0 csr = some r)
    (hv : csrValue s .c0 r = capacityWord cap) :
    (cap = none → Reads s .c0 csr 0xFFFFFFFFFFFFFFFF) ∧
    ∀ k, cap = some k → k < 2 ^ 64 → Reads s .c0 csr (BitVec.ofNat 64 k) := by
  constructor
  · rintro rfl
    have h := reads_csrValue s hr
    rwa [hv] at h
  · rintro k rfl hk
    exact reads_number hr hv hk

/-- Settles O48: row by row of R27. -/
theorem rdcsrReadsTheRegisterTable : Obligations.RdcsrReadsTheRegisterTable := by
  intro s
  have hL : s.blockLength < 2 ^ 64 := (blockLength_le s).trans_lt (by decide)
  obtain ⟨hinNone, hinSome⟩ := reads_capacity (s := s) (csr := 0x05) (r := .inqcap) rfl rfl
  obtain ⟨houtNone, houtSome⟩ := reads_capacity (s := s) (csr := 0x06) (r := .outqcap) rfl rfl
  exact ⟨reads_number (r := .blklen) rfl rfl hL, reads_csrValue (r := .gain) s rfl,
    reads_csrValue (r := .fault) s rfl, reads_number (r := .nchan) rfl rfl (by decide),
    reads_number (r := .maxblk) rfl rfl (by decide), hinNone, hinSome, houtNone, houtSome,
    fun _ => ⟨reads_number (r := .latency) rfl rfl, reads_number (r := .inlvla) rfl rfl,
      reads_number (r := .inlvlb) rfl rfl, reads_number (r := .outlvl) rfl rfl,
      reads_number (r := .ovllen) rfl rfl⟩⟩

/-! ### The `FAULT` register -/

theorem reads_fault (s : State) : Reads s .c0 0x02 (faultWord s.eng.fault) := reads_csrValue (r := .fault) s rfl

/-- The layout of the register once a fault is recorded (R30, R121). -/
theorem faultWord_layout (cause : Cause) (c : Chan) :
    faultWord (some (cause, c)) ≠ 0 ∧ (faultWord (some (cause, c))).extractLsb' 0 8 = cause.code ∧
    (faultWord (some (cause, c))).extractLsb' 8 4 = chanNumber c ∧
    (faultWord (some (cause, c))).extractLsb' 12 52 = 0 := by
  cases cause <;> cases c <;> decide

/-- No step but the one that takes the reset input changes a faulted block (R125). -/
theorem step_block_of_faulted {s t : State} {f : Cause × Chan} (hf : s.eng.fault = some f)
    (hin : ∀ rest, s.input ≠ .hardwareReset :: rest) (h : step s = .next t) : t.block = s.block := by
  rcases step_cases h with ⟨-, rfl⟩ | ⟨rest, hreset, -⟩ | ⟨p, rest, -, ⟨i, -, hexec⟩ | ⟨-, rfl⟩⟩
  · rfl
  · exact absurd hreset (hin rest)
  · exact (effect_of_exec hexec).block_of_faulted hf
  · rfl

/-- Settles O50. -/
theorem faultRegisterHoldsCauseAndChannel : Obligations.FaultRegisterHoldsCauseAndChannel := by
  refine ⟨fun s hs => ?_, fun s cause c hs => ?_, fun s t f hs hin h => ?_⟩
  · have hread := reads_fault s
    rwa [hs] at hread
  · obtain ⟨hne, hcause, hchan, hzero⟩ := faultWord_layout cause c
    refine ⟨faultWord s.eng.fault, reads_fault s, ?_⟩
    rw [hs, hcause, hchan]
    refine ⟨hne, ?_, ?_, hzero⟩
    · cases cause <;> rfl
    · cases c <;> rfl
  · rw [State.eng, step_block_of_faulted hs hin h]
    exact hs

end Sys2Proof.Machine
end

section
/-! Successive drains of one channel (R36, R42; O23). -/

namespace Sys2Proof.Machine

/-! ### Draining while enough is queued -/

theorem ChannelState.ready_of_le {x : ChannelState} {n : Nat} (h : n ≤ x.outQ.length) : x.ready n = n := by
  rw [ready_eq, Nat.min_eq_left h]

theorem ChannelState.shortfall_of_le {x : ChannelState} {n : Nat} (h : n ≤ x.outQ.length) : x.shortfall n = 0 :=
  Nat.sub_eq_zero_of_le h

/-- With `n` samples queued, a `DRAIN` of `n` delivers the `n` oldest and no zero (R67). -/
theorem ChannelState.drained_of_le {x : ChannelState} {n : Nat} (h : n ≤ x.outQ.length) :
    x.drained n = x.outQ.take n := by
  rw [drained, ready_of_le h, shortfall_of_le h]
  rfl

theorem ChannelState.drain_of_le {x : ChannelState} {n : Nat} (h : n ≤ x.outQ.length) :
    x.drain n = { x with outQ := x.outQ.drop n, lat := 0 } := by
  rw [drain, ready_of_le h, shortfall_of_le h]

section
variable {x : ChannelState} {n m : Nat}

/-- What the first of two drains leaves queued is enough for the second. -/
theorem ChannelState.le_length_drain_outQ (h : n + m ≤ x.outQ.length) : m ≤ (x.drain n).outQ.length := by
  rw [drain_of_le (by omega), List.length_drop]
  omega

theorem ChannelState.drained_add (h : n + m ≤ x.outQ.length) :
    x.drained (n + m) = x.drained n ++ (x.drain n).drained m := by
  have hn : n ≤ x.outQ.length := by omega
  rw [drained_of_le h, drained_of_le hn, drained_of_le (le_length_drain_outQ h), drain_of_le hn, List.take_add]

theorem ChannelState.drain_add (h : n + m ≤ x.outQ.length) : x.drain (n + m) = (x.drain n).drain m := by
  rw [drain_of_le h, drain_of_le (le_length_drain_outQ h), drain_of_le (by omega), List.drop_drop]

end

/-! ### Draining a ready channel -/

@[simp] theorem BlockState.setCh_setCh (b : BlockState) (c : Chan) (x y : ChannelState) :
    (b.setCh c x).setCh c y = b.setCh c y := by
  cases c <;> rfl

@[simp] theorem State.setCh_block (s : State) (c : Chan) (x : ChannelState) :
    (s.setCh c x).block = s.block.setCh c x := rfl

/-- A `DRAIN` keeps what `ChanCheck` reads, so the channel stays ready (R63, R67). -/
theorem ready_drain {s : State} {c : Chan} (h : Ready s c) (n : Nat) (st : Status) (d : List Word64) :
    Ready ((s.setCh c ((s.ch c).drain n)).answer st d) c := by
  obtain ⟨hfault, hqueues, hoverlap⟩ := h
  exact ⟨by simpa [Unfaulted] using hfault, by simpa [QueuesAgree] using hqueues,
    by simpa [OverlapFits] using hoverlap⟩

/-- The only next state and the only data of a `DRAIN` on a ready channel. -/
theorem eq_of_exec_drain {s t : State} {c : Chan} {n : Imm} {d : List Word64} (h : Ready s c)
    (hexec : exec (.drain c n) s = .next t) (hans : Answered s t .ok d) :
    d = (s.ch c).drained n.toNat ∧ t = (s.setCh c ((s.ch c).drain n.toNat)).answer .ok ((s.ch c).drained n.toNat) := by
  have ht := (execDrain_ready h n).symm.trans hexec
  cases ht
  obtain ⟨hresponses, -, -⟩ := hans
  have hdata : (s.ch c).drained n.toNat = d := by simpa using hresponses
  exact ⟨hdata.symm, rfl⟩

/-- Settles O23: both ways take the same samples off the head of the queue and leave the latency 0. -/
theorem successiveDrainsDeliverInOrder : Obligations.SuccessiveDrainsDeliverInOrder := by
  intro s t u v c n m k d₁ d₂ d₃ hs hk hlen hn hd₁ hm hd₂ hkexec hd₃
  obtain ⟨rfl, rfl⟩ := eq_of_exec_drain hs hn hd₁
  obtain ⟨rfl, rfl⟩ := eq_of_exec_drain (ready_drain hs ..) hm hd₂
  obtain ⟨rfl, rfl⟩ := eq_of_exec_drain hs hkexec hd₃
  rw [hk] at hlen ⊢
  rw [ChannelState.drained_add hlen, ChannelState.drain_add hlen]
  simp

end Sys2Proof.Machine
end

section
/-! Decoding and encoding (R47 to R55; O8 to O11, O13): a header matches a row exactly if its three fields are as the
row's command needs them, and a packet decodes to a command exactly if the command is well formed and the packet
spells it. -/

namespace Sys2Proof.Machine

/-! ### Rows, field by field -/

/-- The opcode of a row (R49). -/
def opcodeByte : Opcode → BitVec 8
  | .push => 0x01
  | .proc => 0x02
  | .drain => 0x03
  | .setblk => 0x10
  | .setexp => 0x11
  | .setgain => 0x12
  | .reset => 0x13
  | .rdcsr => 0x20

/-- The row's channel field is a channel; otherwise it is 0 (R48, R49). -/
def hasChannel : Opcode → Bool
  | .push | .proc | .drain | .rdcsr => true
  | .setblk | .setexp | .setgain | .reset => false

/-- The row's immediate is an operand; otherwise it is 0 (R49). -/
def hasImmediate : Opcode → Bool
  | .drain | .setblk | .setexp | .rdcsr => true
  | .push | .proc | .setgain | .reset => false

/-- The fields of a header are as a row of the opcode map needs them (R49). -/
def FieldsFit (o : Opcode) (h : Header) : Prop :=
  h.op = opcodeByte o ∧ (if hasChannel o then h.ch.toNat < 2 else h.ch = 0) ∧ (hasImmediate o = false → h.imm = 0)

theorem opcodeByte_injective {o o' : Opcode} (h : opcodeByte o = opcodeByte o') : o = o' := by
  cases o <;> cases o' <;> cases h <;> rfl

theorem exists_row (o : Opcode) : ∃ r ∈ opRows, r.op = o := by
  cases o <;> decide

theorem row_eq_of_op : ∀ r ∈ opRows, ∀ r' ∈ opRows, r.op = r'.op → r = r' := by
  decide

/-- The mask and the pattern of a row, field by field. -/
theorem row_fields {r : OpRow} (hr : r ∈ opRows) :
    r.mask.op = BitVec.allOnes 8 ∧ r.pat.op = opcodeByte r.op ∧
    r.mask.ch = (if hasChannel r.op then 0xE else BitVec.allOnes 4) ∧ r.pat.ch = 0 ∧
    r.mask.imm = (if hasImmediate r.op then 0 else BitVec.allOnes 20) ∧ r.pat.imm = 0 := by
  revert r
  decide

/-- The mask that leaves bit 20 of a header open leaves the two channels. -/
theorem channel_mask (x : BitVec 4) : x &&& 0xE = 0 ↔ x.toNat < 2 := by
  revert x
  decide

theorem matches_iff_fieldsFit {r : OpRow} (hr : r ∈ opRows) (h : Header) :
    r.matches h = true ↔ FieldsFit r.op h := by
  obtain ⟨hop, hop', hch, hch', himm, himm'⟩ := row_fields hr
  rw [matches_iff, hop, hop', hch, hch', himm, himm', BitVec.and_allOnes, FieldsFit]
  refine and_congr_right' (and_congr ?_ ?_)
  · cases hasChannel r.op
    · simp [-BitVec.reduceAllOnes]
    · exact channel_mask h.ch
  · cases hasImmediate r.op <;> simp [-BitVec.reduceAllOnes]

/-- Settles O9: the opcode of the header names the row. -/
theorem noTwoRowsMatchOneHeader : Obligations.NoTwoRowsMatchOneHeader := by
  intro h r r' hr hr' hm hm'
  obtain ⟨hop, -⟩ := (matches_iff_fieldsFit hr h).1 (beq_iff_eq.2 hm)
  obtain ⟨hop', -⟩ := (matches_iff_fieldsFit hr' h).1 (beq_iff_eq.2 hm')
  exact row_eq_of_op r hr r' hr' (opcodeByte_injective (hop.symm.trans hop'))

/-- Step 1 of R54 finds the one row that fits. -/
theorem matchRow_eq_some {h : Header} {o : Opcode} : matchRow h = some o ↔ FieldsFit o h := by
  rw [matchRow, Option.map_eq_some_iff]
  constructor
  · rintro ⟨r, hfind, rfl⟩
    exact (matches_iff_fieldsFit (List.mem_of_find?_eq_some hfind) h).1
      (List.find?_some (p := fun r : OpRow => r.matches h) hfind)
  · intro hfit
    obtain ⟨r, hr, rfl⟩ := exists_row o
    have hm := (matches_iff_fieldsFit hr h).2 hfit
    have hsome := List.find?_isSome (p := fun r : OpRow => r.matches h).2 ⟨r, hr, hm⟩
    obtain ⟨r', hfind⟩ := Option.isSome_iff_exists.1 hsome
    have hm' := List.find?_some (p := fun r : OpRow => r.matches h) hfind
    have hrow := noTwoRowsMatchOneHeader h r' r (List.mem_of_find?_eq_some hfind) hr (beq_iff_eq.1 hm')
      (beq_iff_eq.1 hm)
    exact ⟨r', hfind, congrArg OpRow.op hrow⟩

/-! ### What a packet decodes to -/

/-- The packet has the header of the command and the operand words that the command uses (R47). -/
def Spells (p : Packet) (i : Instr) : Prop :=
  i.header = p.header ∧ (usesOpa i = true → i.opa = p.opa) ∧ (usesOpb i = true → i.opb = p.opb)

theorem spells_encode (i : Instr) : Spells (encode i) i := by
  simp [Spells, encode]

/-- The header of a command fits the command's own row. -/
theorem fieldsFit_header (i : Instr) : FieldsFit i.row i.header := by
  obtain ⟨r, hr, hop⟩ := exists_row i.row
  rw [← hop, ← matches_iff_fieldsFit hr]
  revert hop
  cases i with
  | push c a b => exact (Laws.EncodesItsRow.push c a b r hr).2
  | proc c => exact (Laws.EncodesItsRow.proc c r hr).2
  | drain c n => exact (Laws.EncodesItsRow.drain c n r hr).2
  | setblk len => exact (Laws.EncodesItsRow.setblk len r hr).2
  | setexp e => exact (Laws.EncodesItsRow.setexp e r hr).2
  | setgain p => exact (Laws.EncodesItsRow.setgain p r hr).2
  | reset => exact (Laws.EncodesItsRow.reset r hr).2
  | rdcsr c csr => exact (Laws.EncodesItsRow.rdcsr c csr r hr).2

/-- A header that fits a row is rebuilt from the row's opcode and the header's own other fields. -/
theorem mkHeader_of_fieldsFit {o : Opcode} {h : Header} {c : BitVec 4} {n : Imm} (hfit : FieldsFit o h)
    (hc : c = h.ch) (hn : n = h.imm) : mkHeader (opcodeByte o) c n = h := by
  rw [← hfit.1, hc, hn, mkHeader_fields]

/-- The command of a row that a packet fits is well formed and spelt by the packet. -/
theorem spells_of_commandOf {o : Opcode} {p : Packet} {i : Instr} (hfit : FieldsFit o p.header)
    (h : commandOf o p = .ok i) : WellFormed i ∧ Spells p i := by
  have hheader {c n} := mkHeader_of_fieldsFit (c := c) (n := n) hfit
  obtain ⟨-, hch, himm⟩ := hfit
  cases o with
  | push =>
    cases h
    exact ⟨rfl, hheader (field_chan hch) (himm rfl).symm, fun _ => rfl, fun _ => rfl⟩
  | proc =>
    cases h
    exact ⟨rfl, hheader (field_chan hch) (himm rfl).symm, nofun, nofun⟩
  | drain =>
    cases h
    exact ⟨rfl, hheader (field_chan hch) rfl, nofun, nofun⟩
  | setblk | setexp =>
    cases h
    exact ⟨rfl, hheader (Eq.symm hch) rfl, nofun, nofun⟩
  | setgain =>
    cases h
    exact ⟨rfl, hheader (Eq.symm hch) (himm rfl).symm, fun _ => rfl, nofun⟩
  | reset =>
    cases h
    exact ⟨rfl, hheader (Eq.symm hch) (himm rfl).symm, nofun, nofun⟩
  | rdcsr =>
    simp only [commandOf, csrSelect_isSome] at h
    split at h
    · cases h
      exact ⟨‹_›, hheader (field_chan hch) rfl, nofun, nofun⟩
    · cases h

/-- A packet that spells a well-formed command has the fields from which its row makes that command. -/
theorem commandOf_of_spells {p : Packet} {i : Instr} (hwf : WellFormed i) (h : Spells p i) :
    commandOf i.row p = .ok i := by
  obtain ⟨hheader, hopa, hopb⟩ := h
  cases i with
  | push c a b => simp [Instr.row, commandOf, ← hheader, ← hopa rfl, ← hopb rfl, Instr.header, Instr.opa, Instr.opb]
  | setgain p => simp [Instr.row, commandOf, ← hopa rfl, Instr.opa]
  | rdcsr c csr =>
    have hlegal : csrLegal csr c = true := hwf
    simp [Instr.row, commandOf, ← hheader, Instr.header, csrSelect_isSome, hlegal]
  | proc _ | drain _ _ | setblk _ | setexp _ | reset => simp [Instr.row, commandOf, ← hheader, Instr.header]

/-- Decoding in one statement (R47 to R51, R54). -/
theorem decode_eq_ok {p : Packet} {i : Instr} : decode p = .ok i ↔ WellFormed i ∧ Spells p i := by
  unfold decode
  constructor
  · intro h
    cases hrow : matchRow p.header with
    | none => simp [hrow] at h
    | some o => exact spells_of_commandOf (matchRow_eq_some.1 hrow) (by simpa [hrow] using h)
  · rintro ⟨hwf, hspells⟩
    have hrow : matchRow p.header = some i.row := matchRow_eq_some.2 (hspells.1 ▸ fieldsFit_header i)
    rw [hrow]
    exact commandOf_of_spells hwf hspells

/-- Settles O10: the packet of a command spells it. -/
theorem decodeOfEncodeIsTheCommand : Obligations.DecodeOfEncodeIsTheCommand :=
  fun i hwf => decode_eq_ok.2 ⟨hwf, spells_encode i⟩

/-- Settles O11: what a packet decodes to is what it spells, and spelling reads the used operand words only. -/
theorem unusedOperandWordsAreIgnored : Obligations.UnusedOperandWordsAreIgnored := by
  intro p i h
  obtain ⟨hwf, hheader, hopa, hopb⟩ := decode_eq_ok.1 h
  refine ⟨hwf, hheader, hopa, hopb, fun q hq hqa hqb => decode_eq_ok.2 ⟨hwf, hheader.trans hq.symm, ?_, ?_⟩⟩
  · exact fun hu => (hopa hu).trans (hqa hu).symm
  · exact fun hu => (hopb hu).trans (hqb hu).symm

/-- A packet that is the encoding of a well-formed command decodes to it. -/
theorem decode_of_encode_eq {p : Packet} {i : Instr} (hwf : WellFormed i) (h : encode i = p) : decode p = .ok i :=
  h ▸ decodeOfEncodeIsTheCommand i hwf

/-- Settles O13: each worked packet is the encoding of its command. -/
theorem workedPacketsDecode : Obligations.WorkedPacketsDecode :=
  ⟨decode_of_encode_eq rfl rfl, decode_of_encode_eq rfl rfl, decode_of_encode_eq rfl rfl,
    decode_of_encode_eq rfl rfl, decode_of_encode_eq rfl rfl, decode_of_encode_eq rfl rfl,
    decode_of_encode_eq rfl rfl, decode_of_encode_eq rfl rfl, decode_of_encode_eq rfl rfl⟩

end Sys2Proof.Machine
end

section
/-! The bytes of packets and responses (R39, R52, R58; O12, O54). -/

namespace Sys2Proof.Machine

/-! ### Words as bytes -/

@[simp] theorem length_bytesOf {w : Nat} (x : BitVec w) (n : Nat) : (bytesOf x n).length = n := by
  simp [bytesOf]

theorem bytesOf_succ {w : Nat} (x : BitVec w) (n : Nat) :
    bytesOf x (n + 1) = bytesOf x n ++ [x.extractLsb' (8 * n) 8] := by
  simp [bytesOf, List.range_succ]

/-- Bits cut out of bits that were cut out. -/
theorem extractLsb'_extractLsb' {w : Nat} (x : BitVec w) {a k m n : Nat} (h : k + m ≤ n) :
    (x.extractLsb' a n).extractLsb' k m = x.extractLsb' (a + k) m := by
  ext i hi
  have hin : k + i < n := by omega
  simp [hin, Nat.add_assoc]

/-- The bytes of a word that is cut out of another at a byte boundary. -/
theorem bytesOf_extractLsb' {w : Nat} (x : BitVec w) (a n : Nat) :
    bytesOf (x.extractLsb' (8 * a) (8 * n)) n = (List.range n).map fun k => x.extractLsb' (8 * (a + k)) 8 := by
  refine List.map_congr_left fun k hk => ?_
  have hk' : 8 * k + 8 ≤ 8 * n := by
    have := List.mem_range.1 hk
    omega
  rw [extractLsb'_extractLsb' x hk', Nat.mul_add]

theorem natOfBytes_append (as bs : List Byte) :
    natOfBytes (as ++ bs) = natOfBytes as + 256 ^ as.length * natOfBytes bs := by
  induction as with
  | nil => simp [natOfBytes]
  | cons a as ih =>
    simp only [List.cons_append, natOfBytes, ih, List.length_cons]
    ring

/-- The bytes of a word spell its low bits. -/
theorem natOfBytes_bytesOf {w : Nat} (x : BitVec w) (n : Nat) : natOfBytes (bytesOf x n) = x.toNat % 256 ^ n := by
  induction n with
  | zero => simp [bytesOf, natOfBytes, Nat.mod_one]
  | succ n ih =>
    have hbyte : (x.extractLsb' (8 * n) 8).toNat = x.toNat / 256 ^ n % 256 := by
      rw [BitVec.extractLsb'_toNat, Nat.shiftRight_eq_div_pow, pow_mul]
      rfl
    rw [bytesOf_succ, natOfBytes_append, ih, length_bytesOf, Nat.mod_pow_succ]
    simp only [natOfBytes, hbyte, mul_zero, add_zero]

/-- A word of `n` bytes is spelt by them. -/
theorem natOfBytes_bytesOf_self {n : Nat} (x : BitVec (8 * n)) : natOfBytes (bytesOf x n) = x.toNat := by
  rw [natOfBytes_bytesOf, Nat.mod_eq_of_lt]
  exact x.isLt.trans_eq (pow_mul 2 8 n)

/-! ### Packets -/

theorem ofBytes_toBytes_append (p : Packet) (rest : List Byte) : Packet.ofBytes (p.toBytes ++ rest) = some (p, rest) := by
  have hlen : p.toBytes.length = 20 := length_bytesOf p 20
  have hnat : natOfBytes p.toBytes = p.toNat := natOfBytes_bytesOf_self (n := 20) p
  rw [Packet.ofBytes, List.take_left' hlen, List.drop_left' hlen, hnat, if_pos (by simp [hlen]), BitVec.ofNat_toNat,
    BitVec.setWidth_eq]

theorem toBytes_eq_words (p : Packet) : p.toBytes = bytesOf p.opb 8 ++ bytesOf p.opa 8 ++ bytesOf p.header 4 := by
  have hopb := bytesOf_extractLsb' p 0 8
  have hopa := bytesOf_extractLsb' p 8 8
  have hheader := bytesOf_extractLsb' p 16 4
  rw [Packet.opb, Packet.opa, Packet.header, hopb, hopa, hheader]
  rfl

/-- Settles O12: the bytes of the packet are those of its words, and spell it. -/
theorem packetBytesAreLeastSignificantFirst : Obligations.PacketBytesAreLeastSignificantFirst := by
  intro p rest
  have hwords := toBytes_eq_words p
  refine ⟨hwords, length_bytesOf p 20, ?_, ?_, ofBytes_toBytes_append p rest⟩
  · rw [hwords]
    rfl
  · rw [hwords]
    rfl

/-! ### Responses -/

theorem length_dataBytes (r : Response) : r.dataBytes.length = 8 * r.data.length := by
  simp [Response.dataBytes, List.length_flatMap, mul_comm]

/-- The eight bytes of a data word among those of all of them. -/
theorem bytes_of_dataWord {ws : List Word64} {k : Nat} {w : Word64} (h : ws[k]? = some w) :
    ((ws.flatMap (bytesOf · 8)).drop (8 * k)).take 8 = bytesOf w 8 := by
  induction ws generalizing k with
  | nil => simp at h
  | cons v ws ih =>
    have hlen := length_bytesOf v 8
    rw [List.flatMap_cons]
    cases k with
    | zero =>
      obtain rfl : v = w := by simpa using h
      rw [mul_zero, List.drop_zero, List.take_left' hlen]
    | succ k =>
      rw [Nat.mul_succ, Nat.add_comm, ← List.drop_drop, List.drop_left' hlen]
      exact ih (by simpa using h)

/-- Settles O54. -/
theorem responseBytesAreHeaderThenData : Obligations.ResponseBytesAreHeaderThenData := by
  intro r
  have hheader : (bytesOf r.header 4).length = 4 := length_bytesOf r.header 4
  refine ⟨?_, ?_, fun k w hw => ?_⟩
  · rw [Response.toBytes, List.length_append, hheader, length_dataBytes]
  · rw [Response.toBytes, List.take_left' hheader]
    exact natOfBytes_bytesOf_self (n := 4) r.header
  · rw [Response.toBytes, ← List.drop_drop, List.drop_left' hheader, Response.dataBytes, bytes_of_dataWord hw]
    exact natOfBytes_bytesOf_self (n := 8) w

end Sys2Proof.Machine
end

section
/-! What a packet on the port is answered (R52 to R55, R122; O5, O6, O8): an illegal packet `ST_ILLEGAL`, any other
packet what its command answers, one response each. -/

namespace Sys2Proof.Machine

/-! ### Illegal packets -/

theorem illegalHeader_of_opcode {h : Header} {o : Opcode} (hop : h.op = opcodeByte o) :
    IllegalHeader h ↔ ¬ FieldsFit o h := by
  rw [IllegalHeader, FieldsFit, hop]
  cases o <;> simp [opcodeByte, hasChannel, hasImmediate, imp_iff_not_or, -Order.lt_two_iff]

theorem illegalHeader_of_unknown {h : Header} (hop : ∀ o, h.op ≠ opcodeByte o) : IllegalHeader h := by
  refine .inl fun hmem => ?_
  have hknown : h.op ∈ [Opcode.push, .proc, .drain, .setblk, .setexp, .setgain, .reset, .rdcsr].map opcodeByte := hmem
  obtain ⟨o, -, ho⟩ := List.mem_map.1 hknown
  exact hop o ho.symm

/-- The cases (a) to (c) of R55 are what no row matches. -/
theorem matchRow_eq_none {h : Header} : matchRow h = none ↔ IllegalHeader h := by
  rw [Option.eq_none_iff_forall_not_mem]
  simp only [Option.mem_def, matchRow_eq_some]
  constructor
  · intro hnone
    by_cases hop : ∃ o, h.op = opcodeByte o
    · obtain ⟨o, ho⟩ := hop
      exact (illegalHeader_of_opcode ho).2 (hnone o)
    · exact illegalHeader_of_unknown (not_exists.1 hop)
  · intro hill o hfit
    exact (illegalHeader_of_opcode hfit.1).1 hill hfit

theorem illegalHeader_iff_no_row (h : Header) : IllegalHeader h ↔ ∀ r ∈ opRows, h &&& r.mask ≠ r.pat := by
  rw [← matchRow_eq_none, matchRow, Option.map_eq_none_iff, List.find?_eq_none]
  simp only [OpRow.matches, beq_iff_eq, ne_eq]

/-- `CsrLegal` over the fields of a header that names a channel (R55 d). -/
theorem csrLegal_iff {h : Header} (hch : h.ch.toNat < 2) :
    csrLegal h.imm h.chan = true ↔
      h.imm.toNat ≤ 0x06 ∧ h.ch = 0 ∨ 0x10 ≤ h.imm.toNat ∧ h.imm.toNat ≤ 0x14 ∧ h.ch.toNat < 2 := by
  have hchan : h.chan = .c0 ↔ h.ch = 0 := by
    rw [← field_chan hch]
    cases h.chan <;> decide
  simp [csrLegal, isEngineCsr, isChannelCsr, hchan, hch]

/-- The packet of a row that fits is refused in the case (d) of R55 only. -/
theorem commandOf_eq_error {o : Opcode} {p : Packet} :
    (∃ why, commandOf o p = .error why) ↔ o = .rdcsr ∧ ¬ csrLegal p.header.imm p.header.chan = true := by
  cases o with
  | rdcsr =>
    simp only [commandOf, csrSelect_isSome]
    split <;> simp_all
  | push | proc | drain | setblk | setexp | setgain | reset => simp [commandOf]

/-- The decoder refuses exactly the packets R55 lists. -/
theorem decode_eq_error {p : Packet} : (∃ why, decode p = .error why) ↔ IllegalPacket p := by
  unfold decode IllegalPacket
  cases hrow : matchRow p.header with
  | none => simp [matchRow_eq_none.1 hrow]
  | some o =>
    have hlegal : ¬ IllegalHeader p.header := by simp [← matchRow_eq_none, hrow]
    obtain ⟨hop, hch, -⟩ := matchRow_eq_some.1 hrow
    have hrdcsr : p.header.op = 0x20 ↔ o = .rdcsr := by
      rw [hop]
      exact ⟨fun h => opcodeByte_injective (o' := .rdcsr) h, fun h => h ▸ rfl⟩
    simp only [commandOf_eq_error, hlegal, false_or, hrdcsr]
    refine and_congr_right fun ho => not_congr ?_
    subst ho
    exact csrLegal_iff hch

/-! ### What a command answers -/

/-- How many data words a command answers with when it completes (R52). -/
def dataCount : Instr → Nat
  | .drain _ n => n.toNat
  | .rdcsr _ _ => 1
  | .push _ _ _ | .proc _ | .setblk _ | .setexp _ | .setgain _ | .reset => 0

theorem dataCount_lt (i : Instr) : dataCount i < 2 ^ 20 := by
  cases i with
  | drain c n => exact n.isLt
  | rdcsr _ _ => exact Nat.one_lt_two_pow (by decide)
  | push _ _ _ | proc _ | setblk _ | setexp _ | setgain _ | reset => exact Nat.two_pow_pos 20

theorem dataCount_eq_zero {i : Instr} (hdrain : ∀ c n, i ≠ .drain c n) (hrdcsr : ∀ c csr, i ≠ .rdcsr c csr) :
    dataCount i = 0 := by
  cases i with
  | drain c n => exact absurd rfl (hdrain c n)
  | rdcsr c csr => exact absurd rfl (hrdcsr c csr)
  | push _ _ _ | proc _ | setblk _ | setexp _ | setgain _ | reset => rfl

/-- A response that a command can give: data only with `ST_OK`, and then as much as R52 says; `ST_ILLEGAL` only if no
packet spells the command (R55 d). -/
structure IsAnswerOf (i : Instr) (st : Status) (data : List Word64) : Prop where
  ok : st = .ok → data.length = dataCount i
  notOk : st ≠ .ok → data = []
  legal : WellFormed i → st ≠ .illegal

theorem isAnswerOf_ok {i : Instr} {data : List Word64} (h : data.length = dataCount i) : IsAnswerOf i .ok data :=
  ⟨fun _ => h, fun hne => absurd rfl hne, nofun⟩

/-- The outcome of a command is a next state with one response more, an answer of the command. -/
def AnswersOnce (i : Instr) (s : State) (r : Result) : Prop :=
  ∃ t st data, r = .next t ∧ Answered s t st data ∧ IsAnswerOf i st data

section
variable {i : Instr} {s : State}

theorem answersOnce_respondOk {t : State} {data : List Word64} (hr : t.responses = s.responses) (hc : t.cfg = s.cfg)
    (hi : t.input = s.input) (hd : data.length = dataCount i) : AnswersOnce i s (respondOk t data) :=
  ⟨_, .ok, data, rfl, ⟨congrArg (· ++ _) hr, hc, hi⟩, isAnswerOf_ok hd⟩

theorem answersOnce_reject {st : Status} (hok : st ≠ .ok) (hlegal : WellFormed i → st ≠ .illegal) :
    AnswersOnce i s (reject s st) :=
  ⟨_, st, [], rfl, answered_answer s st [], fun h => absurd h hok, fun _ => rfl, hlegal⟩

theorem answersOnce_raiseFault (cause : Cause) (c : Chan) : AnswersOnce i s (raiseFault s cause c) :=
  ⟨_, .fault, [], rfl, answered_answer (s.setFault _) .fault [], nofun, fun _ => rfl, nofun⟩

theorem answersOnce_whenUnfaulted {body : Result} (h : AnswersOnce i s body) :
    AnswersOnce i s (whenUnfaulted s body) := by
  cases hf : s.eng.fault with
  | none => rwa [whenUnfaulted_none hf]
  | some f =>
    rw [whenUnfaulted_some hf]
    exact answersOnce_reject nofun nofun

/-- A command that rejects an operand which is not legal. -/
theorem answersOnce_operandCheck {t : State} {legal : Bool} (h : AnswersOnce i s (respondOk t [])) :
    AnswersOnce i s (whenUnfaulted s (if legal then respondOk t [] else reject s .cfgErr)) := by
  apply answersOnce_whenUnfaulted
  cases legal
  · exact answersOnce_reject nofun nofun
  · exact h

end

theorem length_of_ownEffect {p : Config.Params} {e : EngineState} {x y : ChannelState} {d : List Word64} {i : Instr}
    {c : Chan} (hi : addressed i = some c) (h : ownEffect p e x i = .ok (y, d)) : d.length = dataCount i := by
  cases i with
  | push _ _ _ | proc _ =>
    rw [ownEffect] at h
    split at h <;> cases h
    rfl
  | drain _ n =>
    cases h
    exact (List.length_map _).trans (x.length_drained n.toNat)
  | setblk _ | setexp _ | setgain _ | reset | rdcsr _ _ => cases hi

theorem answersOnce_addressed {i : Instr} {c : Chan} (hi : addressed i = some c) (s : State) :
    AnswersOnce i s (exec i s) := by
  rw [exec_addressed hi]
  apply answersOnce_whenUnfaulted
  cases hr : channelResult s.cfg s.eng (s.ch c) i with
  | error cause => exact answersOnce_raiseFault cause c
  | ok r => exact answersOnce_respondOk rfl rfl rfl (length_of_ownEffect hi (ownEffect_of_channelResult hr))

/-- Every command is answered once, and has a next state (R7, R54). -/
theorem exec_answersOnce (i : Instr) (s : State) : AnswersOnce i s (exec i s) := by
  cases i with
  | push _ _ _ | proc _ | drain _ _ => exact answersOnce_addressed rfl s
  | setblk _ | setexp _ | setgain _ => exact answersOnce_operandCheck (answersOnce_respondOk rfl rfl rfl rfl)
  | reset => exact answersOnce_whenUnfaulted (answersOnce_respondOk rfl rfl rfl rfl)
  | rdcsr c csr =>
    rw [exec, execRdcsr]
    cases hsel : csrSelect c csr with
    | some r => exact answersOnce_respondOk rfl rfl rfl rfl
    | none =>
      have hill : ¬ WellFormed (.rdcsr c csr) := by
        simp [Instr.wellFormed, ← csrSelect_isSome, hsel]
      exact answersOnce_reject nofun fun hwf => absurd hwf hill

/-! ### The step of a packet -/

theorem step_decoded {s : State} {p : Packet} {rest : List HostInput} {i : Instr} (h : s.input = .packet p :: rest)
    (hd : decode p = .ok i) : step s = exec i { s with input := rest } := by
  simp only [step, takeInput_cons h, hd]

theorem decodeTableWord_eq_some {nbits w : Nat} {i : Instr} :
    decodeTableWord nbits w = some i ↔ decode (packetOfTableWord nbits w) = .ok i := by
  have hbytes := ofBytes_toBytes_append (packetOfTableWord nbits w) []
  rw [List.append_nil] at hbytes
  simp only [decodeTableWord, decodeBytes, hbytes]
  cases decode (packetOfTableWord nbits w) <;> simp

/-- Settles O6: the packet of a table word is the next one taken, and its bytes give it back to the decoder. -/
theorem stepRunsTheDecodedCommand : Obligations.StepRunsTheDecodedCommand :=
  ⟨fun _ _ _ _ => step_decoded, fun _ _ _ _ h => step_decoded rfl (decodeTableWord_eq_some.1 h)⟩

/-- The layout of a response header that has room for its count (R52): that of a packet header. -/
theorem Response.header_fields {r : Response} (h : r.data.length < 2 ^ 20) :
    r.header.extractLsb' 24 8 = r.status.code ∧ r.header.extractLsb' 20 4 = 0 ∧
    (r.header.extractLsb' 0 20).toNat = r.data.length := by
  have himm : r.header.extractLsb' 0 20 = BitVec.ofNat 20 r.data.length := imm_mkHeader ..
  refine ⟨op_mkHeader .., ch_mkHeader .., ?_⟩
  rw [himm, BitVec.toNat_ofNat, Nat.mod_eq_of_lt h]

/-- Settles O5: an illegal packet is rejected, and any other one is answered once by its command. -/
theorem everyPacketGetsOneResponse : Obligations.EveryPacketGetsOneResponse := by
  intro s p rest hin
  cases hd : decode p with
  | error why =>
    exact ⟨_, ⟨.illegal, []⟩, step_illegal hin hd, rfl, rfl, fun _ => rfl, nofun,
      Response.header_fields (Nat.two_pow_pos 20)⟩
  | ok i =>
    obtain ⟨t, st, data, hexec, ⟨hresponses, -, hinput⟩, hok, hnotOk, -⟩ :=
      exec_answersOnce i { s with input := rest }
    have hcount : data.length < 2 ^ 20 := by
      by_cases hst : st = .ok
      · exact hok hst ▸ dataCount_lt i
      · exact hnotOk hst ▸ Nat.two_pow_pos 20
    refine ⟨t, ⟨st, data⟩, (step_decoded hin hd).trans hexec, hinput, hresponses, hnotOk, fun hst => ⟨?_, ?_, ?_⟩,
      Response.header_fields hcount⟩
    · rintro c n ⟨⟩
      exact hok hst
    · rintro c csr ⟨⟩
      exact hok hst
    · intro hdrain hrdcsr
      have hzero : dataCount i = 0 :=
        dataCount_eq_zero (fun c n h => hdrain c n (h ▸ rfl)) fun c csr h => hrdcsr c csr (h ▸ rfl)
      exact List.eq_nil_of_length_eq_zero ((hok hst).trans hzero)

/-- Settles O8: R55's cases over the fields are those of the decoder, and no command that a packet spells answers
`ST_ILLEGAL`. -/
theorem illegalPacketsAreExactlyTheListedOnes : Obligations.IllegalPacketsAreExactlyTheListedOnes := by
  refine ⟨fun _ => decode_eq_error, decode_eq_error.1 ⟨.opcode, rfl⟩, illegalHeader_iff_no_row,
    fun s p rest hin => ⟨fun hill => ?_, fun hlegal => ?_⟩⟩
  · obtain ⟨why, hd⟩ := decode_eq_error.2 hill
    rw [step_illegal hin hd]
    exact rejected_reject _ _
  · cases hd : decode p with
    | error why => exact absurd (decode_eq_error.1 ⟨why, hd⟩) hlegal
    | ok i =>
      obtain ⟨t, st, data, hexec, ⟨hresponses, -, -⟩, hans⟩ := exec_answersOnce i { s with input := rest }
      exact ⟨t, ⟨st, data⟩, (step_decoded hin hd).trans hexec, hresponses, hans.legal (decode_eq_ok.1 hd).1⟩

end Sys2Proof.Machine
end

section
/-! `PUSHN` (R61, R64; O15). -/

namespace Sys2Proof.Machine

/-- Samples appended to the input queues, in order (R61, R64). -/
def ChannelState.pushAll (x : ChannelState) (samples : List (F64 × F64)) : ChannelState :=
  { x with inA := x.inA ++ samples.map Prod.fst, inB := x.inB ++ samples.map Prod.snd }

/-- A state after a `PUSHN` that completes: the samples are queued, and each is answered `ST_OK`. -/
def State.afterPushN (s : State) (c : Chan) (samples : List (F64 × F64)) : State :=
  { s.setCh c ((s.ch c).pushAll samples) with
    responses := s.responses ++ List.replicate samples.length ⟨.ok, []⟩ }

theorem ChannelState.pushAll_nil (x : ChannelState) : x.pushAll [] = x := by
  simp [pushAll]

theorem ChannelState.pushAll_cons (x : ChannelState) (a b : F64) (samples : List (F64 × F64)) :
    x.pushAll ((a, b) :: samples) = (x.push a b).pushAll samples := by
  simp [pushAll, push]

@[simp] theorem State.afterPushN_eng (s : State) (c : Chan) (samples : List (F64 × F64)) :
    (s.afterPushN c samples).eng = s.eng := s.setCh_eng c _

@[simp] theorem State.afterPushN_ch (s : State) (c d : Chan) (samples : List (F64 × F64)) :
    (s.afterPushN c samples).ch d = if d = c then (s.ch c).pushAll samples else s.ch d := s.setCh_ch c d _

@[simp] theorem State.afterPushN_cfg (s : State) (c : Chan) (samples : List (F64 × F64)) :
    (s.afterPushN c samples).cfg = s.cfg := rfl

@[simp] theorem State.afterPushN_input (s : State) (c : Chan) (samples : List (F64 × F64)) :
    (s.afterPushN c samples).input = s.input := rfl

@[simp] theorem State.afterPushN_responses (s : State) (c : Chan) (samples : List (F64 × F64)) :
    (s.afterPushN c samples).responses = s.responses ++ List.replicate samples.length ⟨.ok, []⟩ := rfl

theorem State.afterPushN_nil (s : State) (c : Chan) : s.afterPushN c [] = s :=
  State.ext_ch (by simp) (fun d => by by_cases hd : d = c <;> simp [hd, ChannelState.pushAll_nil]) rfl rfl
    (List.append_nil _)

theorem State.afterPushN_cons (s : State) (c : Chan) (a b : F64) (samples : List (F64 × F64)) :
    s.afterPushN c ((a, b) :: samples) = ((s.setCh c ((s.ch c).push a b)).answer .ok []).afterPushN c samples := by
  refine State.ext_ch (by simp) (fun d => ?_) rfl rfl ?_
  · by_cases hd : d = c <;> simp [hd, ChannelState.pushAll_cons]
  · simp [List.replicate_succ]

/-- A `PUSH` keeps what `ChanCheck` compares, so the channel stays ready (R63, R64). -/
theorem ready_push {s : State} {c : Chan} (h : Ready s c) (a b : F64) (st : Status) (d : List Word64) :
    Ready ((s.setCh c ((s.ch c).push a b)).answer st d) c := by
  obtain ⟨hfault, hqueues, hoverlap⟩ := h
  exact ⟨by simpa [Unfaulted] using hfault, by simpa [QueuesAgree] using hqueues,
    by simpa [OverlapFits] using hoverlap⟩

theorem runAll_cons {i : Instr} {is : List Instr} {s t : State} (h : exec i s = .next t) :
    runAll (i :: is) s = runAll is t := by
  rw [runAll, h]

/-- The expansion of `PUSHN` on a ready channel with room for all samples (R61). -/
theorem runAll_pushN {s : State} {c : Chan} {samples : List (F64 × F64)} (h : Ready s c)
    (hroom : Within s.cfg.inqCap ((s.ch c).inA.length + samples.length)) :
    runAll (pushN c samples) s = .next (s.afterPushN c samples) := by
  induction samples generalizing s with
  | nil => exact congrArg _ (s.afterPushN_nil c).symm
  | cons x samples ih =>
    have hroom₁ : Within s.cfg.inqCap ((s.ch c).inA.length + 1) := fun k hk => by
      have := hroom k hk
      simp only [List.length_cons] at this
      omega
    have hexec : exec (.push c x.1 x.2) s = _ := execPush_ready h x.1 x.2 hroom₁
    rw [pushN, List.map_cons, runAll_cons hexec, s.afterPushN_cons]
    refine ih (ready_push h ..) ?_
    simpa [Nat.add_assoc, Nat.add_comm 1] using hroom

/-- Settles O15. -/
theorem pushNAppendsAllSamplesInOrder : Obligations.PushNAppendsAllSamplesInOrder := by
  intro s c xs h hroom
  refine ⟨_, runAll_pushN h hroom, ?_⟩
  simp +contextual [OnlyChannel, ChannelState.pushAll]

end Sys2Proof.Machine
end

section
/-! The channel commands at their checks and past them (R63, R64, R67; O14, O22, O24). -/

namespace Sys2Proof.Machine

/-! ### Faults and completed commands -/

theorem faultEntered_of_eq_raiseFault {r : Result} {s : State} {cause : Cause} {c : Chan}
    (h : r = raiseFault s cause c) : ∃ t, r = .next t ∧ FaultEntered s t (cause, c) :=
  h ▸ raiseFault_entered s cause c

/-- `ChanCheck` stands before the effect of every channel-addressed command (R63). -/
theorem exec_eq_raiseFault_of_chanCheck {s : State} {i : Instr} {c : Chan} {cause : Cause}
    (hi : addressed i = some c) (hf : Unfaulted s) (hc : chanCheck s c = some cause) :
    exec i s = raiseFault s cause c := by
  have hcheck : (s.ch c).check s.eng.blockLength = some cause := hc
  rw [exec_addressed hi, whenUnfaulted_none hf, channelResult, hcheck]
  rfl

theorem exceeds_of_not_within {cap : Option Nat} {n : Nat} (h : ¬ Within cap n) : exceeds cap n = true :=
  Bool.eq_true_of_not_eq_false (mt exceeds_eq_false.1 h)

/-- The frame of a command that writes one channel and answers `ST_OK`. -/
theorem onlyChannel_setCh_answer (s : State) (c : Chan) (y : ChannelState) (d : List Word64) :
    OnlyChannel c s ((s.setCh c y).answer .ok d) ∧ Answered s ((s.setCh c y).answer .ok d) .ok d :=
  ⟨⟨s.setCh_eng c y, fun e he => by simp [he]⟩, rfl, rfl, rfl⟩

/-- Settles O24. -/
theorem chanCheckRaisesTheFirstBrokenInvariant : Obligations.ChanCheckRaisesTheFirstBrokenInvariant := by
  intro s c i hi hf
  have hraise (cause : Cause) (hc : chanCheck s c = some cause) :=
    faultEntered_of_eq_raiseFault (exec_eq_raiseFault_of_chanCheck hi hf hc)
  exact ⟨fun hq => hraise _ (chanCheck_queue hq), fun hq ho => hraise _ (chanCheck_overlap hq ho)⟩

/-- Settles O14: with room the samples are appended, with a full queue `OVF_INPUT` is raised, and before either
`ChanCheck` is made. -/
theorem pushAppendsOneSampleToEachQueue : Obligations.PushAppendsOneSampleToEachQueue := by
  intro s c a b
  refine ⟨fun h hroom => ⟨_, execPush_ready h a b hroom, ?_⟩,
    fun h hfull => faultEntered_of_eq_raiseFault (execPush_full h a b (exceeds_of_not_within hfull)),
    fun cause hf hc => faultEntered_of_eq_raiseFault (exec_eq_raiseFault_of_chanCheck rfl hf hc)⟩
  obtain ⟨hframe, hanswer⟩ := onlyChannel_setCh_answer s c ((s.ch c).push a b) []
  exact ⟨by simp, by simp, by simp, by simp, by simp, hframe, hanswer⟩

/-! ### What a `DRAIN` delivers and leaves (R67, R71) -/

section
variable {x : ChannelState} {n i : Nat}

theorem ChannelState.getElem?_drained_zeros (hi : i < n - x.outQ.length) : (x.drained n)[i]? = some 0 := by
  have hlt : i < (zeros (x.shortfall n)).length := hi.trans_eq (length_zeros _).symm
  rw [drained, List.getElem?_append_left hlt, zeros]
  exact List.getElem?_replicate_of_lt hi

theorem ChannelState.getElem?_drained_queued (hle : n - x.outQ.length ≤ i) (hlt : i < n) :
    (x.drained n)[i]? = x.outQ[i - (n - x.outQ.length)]? := by
  have hready : i - (n - x.outQ.length) < x.ready n := by
    rw [ready_eq]
    omega
  have hzeros : (zeros (x.shortfall n)).length ≤ i := (length_zeros _).trans_le hle
  rw [drained, List.getElem?_append_right hzeros, length_zeros, shortfall, List.getElem?_take_of_lt hready]

theorem ChannelState.drain_outQ_eq_drop (x : ChannelState) (n : Nat) : (x.drain n).outQ = x.outQ.drop n := by
  rw [drain_outQ, ready_eq, ← List.drop_eq_drop_min]

end

/-- Settles O22: the data are the drained samples, and the checks come first. -/
theorem drainDeliversZerosThenTheOldestSamples : Obligations.DrainDeliversZerosThenTheOldestSamples := by
  intro s c n
  refine ⟨fun h => ?_, fun cause hf hc =>
    faultEntered_of_eq_raiseFault (exec_eq_raiseFault_of_chanCheck rfl hf hc)⟩
  obtain ⟨hframe, hanswer⟩ :=
    onlyChannel_setCh_answer s c ((s.ch c).drain n.toNat) ((s.ch c).drained n.toNat)
  refine ⟨_, _, execDrain_ready h n, hanswer, ChannelState.length_drained _ _,
    fun i hi => ChannelState.getElem?_drained_zeros hi,
    fun i hle hlt => ChannelState.getElem?_drained_queued hle hlt, ?_, ?_, by simp, by simp, by simp, hframe⟩
  · simp only [State.answer_ch, State.setCh_ch, if_pos, ChannelState.drain_outQ_eq_drop]
  · simp [ChannelState.shortfall]

end Sys2Proof.Machine
end

section
/-! One turn of the loop of `PROC`, and how often it turns (R65, R66, R69; O17, O20, O21). -/

namespace Sys2Proof.Machine

open Config (Kernel Window)

/-! ### Adding `+0.0` (R66, R95; log 8) -/

/-- The number a finite pattern stands for needs no rounding. -/
theorem roundMag_fMag {a : F64} (ha : isFinite a = true) : roundMag (fMag a) 1 = magBits a := by
  have hnearest := (roundBits_nearest (num := fMag a) one_pos (magBits a)).1
  have hbits : roundBits (fMag a) 1 = magBits a := by
    refine magValue_strictMono.injective ?_
    rw [magValue_magBits, Nat.cast_one, div_one, sub_self, abs_zero] at hnearest
    rw [magValue_magBits]
    exact_mod_cast sub_eq_zero.1 (abs_nonpos_iff.1 hnearest)
  rw [roundMag_eq_min, hbits]
  exact Nat.min_eq_left (isFinite_iff_magBits.1 ha).le

theorem magBits_lt (a : F64) : magBits a < 2 ^ 63 := by
  have he := fExp_lt a
  have hf := fFrac_lt a
  rw [magBits]
  omega

theorem packF64_magBits (a : F64) : packF64 (fSign a) (magBits a) = a := by
  apply BitVec.eq_of_toNat_eq
  rw [packF64_toNat (magBits_lt a), toNat_fields a, magBits]

theorem fUnits_eq_zero {a : F64} : fUnits a = 0 ↔ fMag a = 0 := by
  rw [fUnits]
  split <;> omega

theorem fUnits_neg_iff {a : F64} (h : fMag a ≠ 0) : fUnits a < 0 ↔ fSign a = true := by
  cases hs : fSign a with
  | false => simp [fUnits, hs]
  | true => simpa [fUnits, hs] using Nat.pos_of_ne_zero h

/-- The only finite patterns of the number 0 are `+0.0` and `-0.0`. -/
theorem magBits_eq_zero_of_fMag {a : F64} (h : fMag a = 0) : magBits a = 0 := by
  refine magValue_strictMono.injective ?_
  rw [magValue_magBits, h]
  rfl

/-- A sum with `+0.0` is the other operand, but for `-0.0`, which becomes `+0.0`. -/
theorem faddFinite_zero {a : F64} (ha : isFinite a = true) :
    faddFinite a 0 = if a = 0x8000000000000000 then 0 else a := by
  have hzero : fUnits 0 = 0 := by decide
  have hsign : fSign 0 = false := by decide
  have hpack := packF64_magBits a
  rw [faddFinite, hzero, hsign, Int.add_zero, Bool.and_false]
  by_cases hm : fMag a = 0
  · rw [magBits_eq_zero_of_fMag hm] at hpack
    rw [if_pos (fUnits_eq_zero.2 hm), ← hpack]
    cases fSign a <;> decide
  · have hne : a ≠ 0x8000000000000000 := by
      rintro rfl
      exact hm (by decide)
    have hneg : decide (fUnits a < 0) = fSign a := by simp [fUnits_neg_iff hm]
    have habs : (fUnits a).natAbs = fMag a := by
      rw [fUnits]
      split <;> simp
    rw [if_neg (mt fUnits_eq_zero.1 hm), if_neg hne, hneg, habs, roundMag_fMag ha, hpack]

theorem fadd_zero_of_not_isNaN {a : F64} (ha : isNaN a = false) :
    fadd a 0 = if a = 0x8000000000000000 then 0 else a := by
  have hzero : isFinite 0 = true := by decide
  rcases kind_cases a with hfin | hinf | hnan
  · rw [fadd_of_isFinite hfin hzero, faddFinite_zero hfin]
  · have hne : a ≠ 0x8000000000000000 := by
      rintro rfl
      exact absurd hinf (by decide)
    rw [if_neg hne, fadd, ha, hinf, not_isNaN_of_isFinite hzero, not_isInf_of_isFinite hzero]
    rfl
  · simp [ha] at hnan

theorem isNaN_fadd_left {a : F64} (ha : isNaN a = true) (b : F64) : isNaN (fadd a b) = true := by
  simp [fadd, ha]

/-! ### The overlap-add, sample by sample (R66) -/

section
variable {L i : Nat} {r ovl : List F64}

theorem getElem?_overlapAdd_out (hr : r.length = 2 * L) (ho : ovl.length = L) (hi : i < L) :
    (overlapAdd L r ovl).1[i]? = some (fadd (r.getD i 0) (ovl.getD i 0)) := by
  have hir : i < r.length := by omega
  have hio : i < ovl.length := by omega
  have htake : (r.take L)[i]? = some r[i] := by rw [List.getElem?_take_of_lt hi, List.getElem?_eq_getElem hir]
  rw [overlapAdd, List.getElem?_zipWith, htake, List.getElem?_eq_getElem hio, List.getD_eq_getElem _ _ hir,
    List.getD_eq_getElem _ _ hio]

theorem getElem?_overlapAdd_tail : (overlapAdd L r ovl).2[i]? = r[i + L]? := by
  rw [overlapAdd, List.getElem?_drop, Nat.add_comm]

end

/-- Settles O21. -/
theorem overlapAddSumsAndKeepsTheTail : Obligations.OverlapAddSumsAndKeepsTheTail := by
  intro L r ovl hr ho
  refine ⟨length_overlapAdd_out hr ho, length_overlapAdd_tail hr, fun i hi => getElem?_overlapAdd_out hr ho hi,
    fun i _ => getElem?_overlapAdd_tail, fun hzeros i hi => ?_⟩
  have hout : (overlapAdd L r ovl).1[i]? = some (fadd (r.getD i 0) 0) := by
    rw [getElem?_overlapAdd_out hr ho hi, hzeros, List.getD_replicate _ hi]
  exact ⟨fun hnan => by rw [hout, fadd_zero_of_not_isNaN hnan], fun hnan => ⟨_, hout, isNaN_fadd_left hnan 0⟩⟩

/-- Settles O17: the overlap-add of the convolved blocks, appended to the output queue. -/
theorem oneTurnConvolvesAndOverlapAdds : Obligations.OneTurnConvolvesAndOverlapAdds := by
  intro K W L g x _ _ ho r y
  have hr : r.length = 2 * L := length_convolve ..
  refine ⟨hr, rfl, rfl, rfl, length_processBlock_outQ K W L g x ho, length_processBlock_ovl K W L g x,
    fun i hi => ?_, fun i hi => ?_, fun i _ => ?_⟩
  · rw [processBlock_outQ, List.getElem?_append_left hi]
  · rw [processBlock_outQ, List.getElem?_append_right (Nat.le_add_right _ _), Nat.add_sub_cancel_left]
    exact getElem?_overlapAdd_out hr ho hi
  · rw [processBlock_ovl]
    exact getElem?_overlapAdd_tail

/-! ### `BlockCount` and the level left (R69) -/

section
variable {n L : Nat}

/-- `BlockCount` blocks are fewer samples than there are, and leave at most one block. -/
theorem blockCount_bounds (hL : 0 < L) (hn : 1 ≤ n) : L * blockCount n L < n ∧ n ≤ L * blockCount n L + L := by
  have hmod := Nat.mod_lt (n - 1) hL
  have hdiv := Nat.div_add_mod (n - 1) L
  rw [blockCount]
  omega

theorem blockCount_eq_ceil (hL : 0 < L) (hn : 1 ≤ n) : (blockCount n L : ℤ) = ⌈(n : ℚ) / L⌉ - 1 := by
  obtain ⟨hlt, hle⟩ := blockCount_bounds hL hn
  have hL' : (0 : ℚ) < L := by exact_mod_cast hL
  rw [eq_sub_iff_add_eq, eq_comm, Int.ceil_eq_iff, lt_div_iff₀ hL', div_le_iff₀ hL']
  constructor
  · push_cast
    rw [add_sub_cancel_right, mul_comm]
    exact_mod_cast hlt
  · push_cast
    rw [add_mul, one_mul, mul_comm]
    exact_mod_cast hle

theorem levelAfter_bounds (hL : 0 < L) (hn : 1 ≤ n) : 1 ≤ levelAfter L n ∧ levelAfter L n ≤ L := by
  obtain ⟨hlt, hle⟩ := blockCount_bounds hL hn
  rw [levelAfter]
  omega

theorem levelAfter_of_le (h : n ≤ L) : levelAfter L n = n := by
  rw [levelAfter, blockCount_of_le h, Nat.mul_zero, Nat.sub_zero]

theorem levelAfter_le (hL : 0 < L) (n : Nat) : levelAfter L n ≤ L := by
  rcases Nat.eq_zero_or_pos n with rfl | hn
  · exact (levelAfter_of_le hL.le).trans_le hL.le
  · exact (levelAfter_bounds hL hn).2

theorem levelAfter_add_blockCount (hL : 0 < L) (n : Nat) : levelAfter L n + blockCount n L * L = n := by
  rcases Nat.eq_zero_or_pos n with rfl | hn
  · rw [levelAfter_of_le hL.le, blockCount_of_le hL.le, Nat.zero_mul]
  · have hlt := (blockCount_bounds hL hn).1
    rw [levelAfter, Nat.mul_comm (blockCount n L)]
    omega

theorem length_processAvailable_inA (K : Kernel) (W : Window) (g : F64) (hL : 0 < L) (x : ChannelState) :
    (processAvailable K W L g x).inA.length = levelAfter L x.inA.length := by
  rw [processAvailable_eq_iterate K W g hL, iterate_processBlock_inA, List.length_drop, Nat.mul_comm, levelAfter]

end

/-- Settles O20. -/
theorem blockCountIsTheNumberOfTurns : Obligations.BlockCountIsTheNumberOfTurns := by
  intro n L hL2
  have hL : 0 < L := by omega
  refine ⟨blockCount_of_le, fun h => ?_, blockCount_of_le hL.le, fun hn => ⟨rfl, blockCount_eq_ceil hL hn⟩, ?_,
    levelAfter_bounds hL, ?_⟩
  · rw [blockCount_of_lt hL h, Nat.add_comm]
  · rintro rfl
    exact Nat.zero_sub _
  · rintro K W g x rfl
    exact ⟨processAvailable_eq_iterate K W g hL x, length_processAvailable_inA K W g hL x⟩

end Sys2Proof.Machine
end

section
/-! `PROC` on a ready channel: its turns, what it leaves, and a second one (R65, R73; O16, O18, O19). -/

namespace Sys2Proof.Machine

open Config (Kernel Window)

/-! ### Completed commands -/

/-- A channel-addressed command that leaves no fault has done its own effect. -/
theorem completed_of_exec_addressed {s t : State} {i : Instr} {c : Chan} (hi : addressed i = some c)
    (h : exec i s = .next t) (ht : Unfaulted t) :
    ∃ y d, ownEffect s.cfg s.eng (s.ch c) i = .ok (y, d) ∧ t = (s.setCh c y).answer .ok d := by
  rw [exec_addressed hi] at h
  rcases whenUnfaulted_cases h with ⟨f, hf, rfl⟩ | ⟨-, hbody⟩
  · cases ht.symm.trans hf
  · cases hr : channelResult s.cfg s.eng (s.ch c) i with
    | error cause =>
      rw [hr] at hbody
      cases hbody
      cases ht
    | ok r =>
      rw [hr] at hbody
      cases hbody
      exact ⟨r.1, r.2, ownEffect_of_channelResult hr, rfl⟩

/-- What a `PROC` that leaves no fault has written, and that its blocks fitted (R65). -/
theorem completed_of_exec_proc {s t : State} {c : Chan} (h : exec (.proc c) s = .next t) (ht : Unfaulted t) :
    Within s.cfg.outqCap ((s.ch c).outQ.length + blockCount (s.ch c).inA.length s.blockLength * s.blockLength) ∧
    ∃ d, t = (s.setCh c (processAvailable (kernelOf s.cfg) (windowOf s.cfg) s.blockLength s.eng.gain
      (s.ch c))).answer .ok d := by
  obtain ⟨y, d, hy, rfl⟩ := completed_of_exec_addressed rfl h ht
  obtain ⟨hfit, rfl⟩ := ownEffect_proc hy
  exact ⟨hfit, d, rfl⟩

/-- Settles O16: the loop takes `BlockCount` turns. -/
theorem procTakesBlockCountTurns : Obligations.ProcTakesBlockCountTurns := by
  intro s c h L m
  refine ⟨fun hfit => ⟨_, procWith_ready _ _ h hfit, ?_, onlyChannel_setCh_answer ..⟩,
    fun hfull => faultEntered_of_eq_raiseFault (procWith_full _ _ h (exceeds_of_not_within hfull))⟩
  rw [State.answer_ch, State.setCh_ch, if_pos rfl]
  exact processAvailable_eq_iterate _ _ _ (blockLength_pos s.eng) _

/-! ### What the loop leaves (R73) -/

section
variable (K : Kernel) (W : Window) {L : Nat} (g : F64) (x : ChannelState)

/-- Where at most one block is queued the loop does not turn. -/
theorem processAvailable_of_le {x : ChannelState} (h : x.inA.length ≤ L) : processAvailable K W L g x = x :=
  processBlocks_of_le K W g _ h

/-- A turn appends to the output queue, so the older samples stay at its head. -/
theorem exists_iterate_processBlock_outQ_eq_append (n : Nat) :
    ∃ out, ((processBlock K W L g)^[n] x).outQ = x.outQ ++ out := by
  induction n generalizing x with
  | zero => exact ⟨[], (List.append_nil _).symm⟩
  | succ n ih =>
    obtain ⟨out, hout⟩ := ih (processBlock K W L g x)
    rw [processBlock_outQ, List.append_assoc] at hout
    exact ⟨_, hout⟩

variable (hL : 0 < L)
include hL

theorem processAvailable_inA :
    (processAvailable K W L g x).inA = x.inA.drop (blockCount x.inA.length L * L) := by
  rw [processAvailable_eq_iterate K W g hL, iterate_processBlock_inA]

theorem processAvailable_inB :
    (processAvailable K W L g x).inB = x.inB.drop (blockCount x.inA.length L * L) := by
  rw [processAvailable_eq_iterate K W g hL, iterate_processBlock_inB]

theorem processAvailable_lat : (processAvailable K W L g x).lat = x.lat := by
  rw [processAvailable_eq_iterate K W g hL, iterate_processBlock_lat]

theorem take_processAvailable_outQ : (processAvailable K W L g x).outQ.take x.outQ.length = x.outQ := by
  obtain ⟨out, hout⟩ := exists_iterate_processBlock_outQ_eq_append K W g x (blockCount x.inA.length L)
  rw [processAvailable_eq_iterate K W g hL, hout, List.take_left]

variable {x}

theorem processAvailable_queuesAgree (h : x.inA.length = x.inB.length) :
    (processAvailable K W L g x).inA.length = (processAvailable K W L g x).inB.length := by
  rw [processAvailable_inA K W g x hL, processAvailable_inB K W g x hL, List.length_drop, List.length_drop, h]

theorem length_processAvailable_ovl (h : x.ovl.length = L) : (processAvailable K W L g x).ovl.length = L := by
  rw [processAvailable_eq_iterate K W g hL]
  exact length_iterate_processBlock_ovl K W L g _ h

theorem length_processAvailable_outQ (h : x.ovl.length = L) :
    (processAvailable K W L g x).outQ.length = x.outQ.length + blockCount x.inA.length L * L := by
  rw [processAvailable_eq_iterate K W g hL]
  exact length_iterate_processBlock_outQ K W L g _ h

end

/-- Settles O18. -/
theorem procLeavesAtMostOneBlockQueued : Obligations.ProcLeavesAtMostOneBlockQueued := by
  intro s t c hready h ht L m
  obtain ⟨-, hqueues, hoverlap⟩ := hready
  obtain ⟨-, d, rfl⟩ := completed_of_exec_proc h ht
  have hL : 0 < L := blockLength_pos s.eng
  have hlevel := length_processAvailable_inA (kernelOf s.cfg) (windowOf s.cfg) s.eng.gain hL (s.ch c)
  rw [State.answer_ch, State.setCh_ch, if_pos rfl, hlevel]
  exact ⟨processAvailable_inA _ _ _ _ hL, processAvailable_inB _ _ _ _ hL,
    hlevel.symm.trans (processAvailable_queuesAgree _ _ _ hL hqueues), levelAfter_le hL _,
    fun hn => (levelAfter_bounds hL hn).1, length_processAvailable_outQ _ _ _ hL hoverlap,
    take_processAvailable_outQ _ _ _ _ hL,
    length_processAvailable_ovl _ _ _ hL hoverlap, processAvailable_lat _ _ _ _ hL⟩

/-! ### A second `PROC` -/

@[simp] theorem BlockState.setCh_ch_self (b : BlockState) (c : Chan) : b.setCh c (b.ch c) = b := by
  cases c <;> rfl

/-- `PROC` keeps what `ChanCheck` compares, so the channel stays ready (R63, R65). -/
theorem ready_processAvailable {s : State} {c : Chan} (h : Ready s c) (K : Kernel) (W : Window) (g : F64)
    (st : Status) (d : List Word64) :
    Ready ((s.setCh c (processAvailable K W s.blockLength g (s.ch c))).answer st d) c := by
  obtain ⟨hfault, hqueues, hoverlap⟩ := h
  have hL : 0 < s.blockLength := blockLength_pos s.eng
  exact ⟨by simpa [Unfaulted] using hfault,
    by simpa [QueuesAgree] using processAvailable_queuesAgree K W g hL hqueues,
    by simpa [OverlapFits] using length_processAvailable_ovl K W g hL hoverlap⟩

/-- A `PROC` on a ready channel with at most one block queued leaves the block as it is (R65). -/
theorem exec_proc_of_le {s : State} {c : Chan} (h : Ready s c) (hle : (s.ch c).inA.length ≤ s.blockLength)
    (hfit : Within s.cfg.outqCap (s.ch c).outQ.length) :
    ∃ u, exec (.proc c) s = .next u ∧ u.block = s.block ∧ Answered s u .ok [] := by
  refine ⟨_, procWith_ready _ _ h ?_, ?_, (onlyChannel_setCh_answer ..).2⟩
  · rwa [blockCount_of_le hle, Nat.zero_mul, Nat.add_zero]
  · rw [State.answer_block, State.setCh_block, processAvailable_of_le _ _ _ hle]
    exact s.block.setCh_ch_self c

/-- Settles O19: the first `PROC` leaves at most one block queued. -/
theorem procTwiceIsProcOnce : Obligations.ProcTwiceIsProcOnce := by
  intro s t c hready h ht
  have hleaves := procLeavesAtMostOneBlockQueued s t c hready h ht
  obtain ⟨-, -, -, hle, -, hout, -⟩ := hleaves
  obtain ⟨hfit, d, rfl⟩ := completed_of_exec_proc h ht
  refine exec_proc_of_le (ready_processAvailable hready ..) ?_ ?_
  · rwa [State.answer_blockLength, State.setCh_blockLength]
  · rwa [hout]

end Sys2Proof.Machine
end

section
/-! Runs of commands on one channel: where `PROC` stands, and the latency of callbacks (R70, R72; O27, O28). -/

namespace Sys2Proof.Machine

open Config (Kernel Window)

/-! ### Runs of commands addressed to one channel -/

/-- The channel after a channel-addressed command that completes (R64, R65, R67). -/
def channelAfter (p : Config.Params) (e : EngineState) (x : ChannelState) : Instr → ChannelState
  | .push _ a b => x.push a b
  | .proc _ => processAvailable (kernelOf p) (windowOf p) e.blockLength e.gain x
  | .drain _ n => x.drain n.toNat
  | .setblk _ | .setexp _ | .setgain _ | .reset | .rdcsr _ _ => x

theorem ownEffect_channelAfter {p : Config.Params} {e : EngineState} {x y : ChannelState} {d : List Word64}
    {i : Instr} (h : ownEffect p e x i = .ok (y, d)) : y = channelAfter p e x i := by
  cases i with
  | push _ _ _ => exact (ownEffect_push h).2
  | proc _ => exact (ownEffect_proc h).2
  | drain _ _ => exact ownEffect_drain h
  | setblk _ | setexp _ | setgain _ | reset | rdcsr _ _ =>
    cases h
    rfl

/-- A run on one channel that ends without a fault has completed every command: a recorded fault stays. -/
theorem runAll_addressed {is : List Instr} {c : Chan} {s t : State} (his : ∀ i ∈ is, addressed i = some c)
    (h : runAll is s = .next t) (ht : Unfaulted t) :
    t.eng = s.eng ∧ t.cfg = s.cfg ∧ (∀ d, d ≠ c → t.ch d = s.ch d) ∧
    t.ch c = is.foldl (channelAfter s.cfg s.eng) (s.ch c) := by
  induction is generalizing s with
  | nil =>
    cases h
    exact ⟨rfl, rfl, fun _ _ => rfl, rfl⟩
  | cons i is ih =>
    obtain ⟨hi, his⟩ := List.forall_mem_cons.1 his
    cases hexec : exec i s with
    | fault r => cases r
    | refused r =>
      rw [runAll, hexec] at h
      cases h
    | next s' =>
      rw [runAll_cons hexec] at h
      obtain ⟨heng, hcfg, hother, hch⟩ := ih his h
      have hs' : Unfaulted s' := by rwa [Unfaulted, ← heng]
      obtain ⟨y, d, hy, rfl⟩ := completed_of_exec_addressed hi hexec hs'
      obtain rfl := ownEffect_channelAfter hy
      rw [State.answer_eng, State.setCh_eng] at heng
      refine ⟨heng, hcfg, fun e he => ?_, ?_⟩
      · rw [hother e he]
        simp [he]
      · simpa using hch

section
variable (p : Config.Params) (e : EngineState) (c : Chan) (x : ChannelState) (samples : List (F64 × F64))

theorem foldl_channelAfter_pushN : (pushN c samples).foldl (channelAfter p e) x = x.pushAll samples := by
  induction samples generalizing x with
  | nil => exact x.pushAll_nil.symm
  | cons v samples ih =>
    rw [x.pushAll_cons, ← ih]
    rfl

end

/-! ### Where `PROC` stands (R70) -/

section
variable {K : Kernel} {W : Window} {L : Nat} {g : F64} {x : ChannelState}

/-- A turn takes its block from the heads of the queues, so samples pushed at their tails can wait for it. -/
theorem processBlock_push (hA : L ≤ x.inA.length) (hB : L ≤ x.inB.length) (a b : F64) :
    processBlock K W L g (x.push a b) = (processBlock K W L g x).push a b := by
  simp [processBlock, ChannelState.push, List.take_append_of_le_length, List.drop_append_of_le_length, hA, hB]

theorem processAvailable_of_lt (hL : 0 < L) (h : L < x.inA.length) :
    processAvailable K W L g x = processAvailable K W L g (processBlock K W L g x) := by
  rw [processAvailable_eq_iterate K W g hL, processAvailable_eq_iterate K W g hL, blockCount_of_lt hL h,
    Function.iterate_succ_apply, processBlock_inA, List.length_drop]

/-- Blocks processed before a `PUSH` are processed the same after it. -/
theorem processAvailable_push_processAvailable (hL : 0 < L) (hqueues : x.inA.length = x.inB.length) (a b : F64) :
    processAvailable K W L g ((processAvailable K W L g x).push a b) = processAvailable K W L g (x.push a b) := by
  induction hn : x.inA.length using Nat.strong_induction_on generalizing x with
  | _ n ih =>
    rcases Nat.lt_or_ge L x.inA.length with hlt | hle
    · have hpush : L < (x.push a b).inA.length := by
        rw [ChannelState.push_inA, List.length_append]
        omega
      have hshorter : (processBlock K W L g x).inA.length < n := by
        rw [processBlock_inA, List.length_drop]
        omega
      rw [processAvailable_of_lt hL hlt, ih _ hshorter (by simp [hqueues]) rfl, processAvailable_of_lt hL hpush,
        processBlock_push hlt.le (hqueues ▸ hlt.le)]
    · rw [processAvailable_of_le K W g hle]

end

/-- A `PUSH` and a `PROC` for every sample pair (R70). -/
def pushProcN (c : Chan) (samples : List (F64 × F64)) : List Instr :=
  samples.flatMap fun v => [.push c v.1 v.2, .proc c]

theorem addressed_of_mem_pushN {c : Chan} {samples : List (F64 × F64)} {i : Instr} (hi : i ∈ pushN c samples) :
    addressed i = some c := by
  obtain ⟨v, -, rfl⟩ := List.mem_map.1 hi
  rfl

theorem addressed_of_mem_pushProcN {c : Chan} {samples : List (F64 × F64)} {i : Instr}
    (hi : i ∈ pushProcN c samples) : addressed i = some c := by
  obtain ⟨v, -, hv⟩ := List.mem_flatMap.1 hi
  rcases List.mem_pair.1 hv with rfl | rfl <;> rfl

section
variable (p : Config.Params) (e : EngineState) (c : Chan) (samples : List (F64 × F64)) {x : ChannelState}

/-- From a channel whose blocks are processed, `PROC` after every `PUSH` ends as one `PROC` after the last. -/
theorem foldl_channelAfter_pushProcN (hqueues : x.inA.length = x.inB.length) :
    (pushProcN c samples).foldl (channelAfter p e) (channelAfter p e x (.proc c)) =
      channelAfter p e (x.pushAll samples) (.proc c) := by
  induction samples generalizing x with
  | nil =>
    rw [x.pushAll_nil]
    rfl
  | cons v samples ih =>
    have hpush : (x.push v.1 v.2).inA.length = (x.push v.1 v.2).inB.length := by simp [hqueues]
    have hhead : channelAfter p e (channelAfter p e (channelAfter p e x (.proc c)) (.push c v.1 v.2)) (.proc c) =
        channelAfter p e (x.push v.1 v.2) (.proc c) :=
      processAvailable_push_processAvailable (blockLength_pos e) hqueues v.1 v.2
    rw [x.pushAll_cons, ← ih hpush, ← hhead]
    rfl

end

/-- Settles O27: both runs complete, and after the first `PUSH` and `PROC` the second never gets ahead of one `PROC` at
the end. -/
theorem placementOfProcDoesNotMatter : Obligations.PlacementOfProcDoesNotMatter := by
  intro s t u c xs hready hne ht htf hu huf
  obtain ⟨-, hqueues, -⟩ := hready
  have hbatch : ∀ i ∈ pushN c xs ++ [.proc c], addressed i = some c := fun i hi =>
    (List.mem_append.1 hi).elim addressed_of_mem_pushN fun h => List.mem_singleton.1 h ▸ rfl
  obtain ⟨hteng, -, htother, htch⟩ := runAll_addressed hbatch ht htf
  obtain ⟨hueng, -, huother, huch⟩ := runAll_addressed (fun _ => addressed_of_mem_pushProcN) hu huf
  have hch : t.ch c = u.ch c := by
    rw [htch, huch, List.foldl_append, foldl_channelAfter_pushN]
    obtain ⟨v, rest, rfl⟩ := List.exists_cons_of_ne_nil hne
    have hpush : ((s.ch c).push v.1 v.2).inA.length = ((s.ch c).push v.1 v.2).inB.length := by simpa using hqueues
    rw [ChannelState.pushAll_cons]
    exact (foldl_channelAfter_pushProcN s.cfg s.eng c rest hpush).symm
  refine BlockState.ext_ch (hteng.trans hueng.symm) fun d => ?_
  by_cases hd : d = c
  · subst hd
    exact hch
  · exact (htother d hd).trans (huother d hd).symm

/-! ### The latency recurrence (R72) -/

section
variable {L : Nat}

theorem levelAfter_sub (hL : 0 < L) {n : Nat} (h : L < n) : levelAfter L n = levelAfter L (n - L) := by
  rw [levelAfter, levelAfter, blockCount_of_lt hL h, Nat.mul_add, Nat.mul_one]
  omega

/-- The level left depends on the samples pushed in all, not on the `PROC`s in between. -/
theorem levelAfter_levelAfter_add (hL : 0 < L) (n m : Nat) :
    levelAfter L (levelAfter L n + m) = levelAfter L (n + m) := by
  induction n using Nat.strong_induction_on with
  | _ n ih =>
    rcases Nat.lt_or_ge L n with hlt | hle
    · have hsub : n - L + m = n + m - L := by omega
      rw [levelAfter_sub hL hlt, ih _ (by omega), hsub, ← levelAfter_sub hL (by omega)]
    · rw [levelAfter_of_le hle]

/-- The totals after one more callback of `n` samples (R72). -/
def nextTotals (L : Nat) : Nat × Nat × Nat → Nat → Nat × Nat × Nat
  | (S, _, Z), n => (S + n, Z, max Z (levelAfter L (S + n)))

theorem callbackTotals_eq_foldl (L : Nat) (ns : List Nat) : callbackTotals L ns = ns.foldl (nextTotals L) (0, 0, 0) :=
  rfl

/-- A channel after callbacks with these totals, `S_k`, `Z_(k-1)` and `Z_k`: R72 (b), (c) and (d). -/
structure AfterCallbacks (L : Nat) (totals : Nat × Nat × Nat) (x : ChannelState) : Prop where
  levelA : x.inA.length = levelAfter L totals.1
  levelB : x.inB.length = levelAfter L totals.1
  overlap : x.ovl.length = L
  output : x.outQ.length + levelAfter L totals.1 = totals.2.2
  latency : x.lat = levelAfter L totals.1 - totals.2.1
  zeros_le : totals.2.2 ≤ L

theorem afterCallbacks_init (hL : 0 < L) : AfterCallbacks L (0, 0, 0) (ChannelState.init L) := by
  have hlevel : levelAfter L 0 = 0 := levelAfter_of_le hL.le
  refine ⟨hlevel.symm, hlevel.symm, length_zeros L, ?_, ?_, Nat.zero_le L⟩ <;> rw [hlevel] <;> rfl

variable {totals : Nat × Nat × Nat} {x : ChannelState}

/-- A callback of `n` samples takes the input level from `r` to `r'` and puts `r + n - r'` samples into the output
queue; then `n` are drained. So with `q` the output level, `q + r = Z` before it becomes `q + r' = max Z r'` after. -/
theorem AfterCallbacks.callback (h : AfterCallbacks L totals x) (hL : 0 < L) (K : Kernel) (W : Window) (g : F64)
    (samples : List (F64 × F64)) :
    AfterCallbacks L (nextTotals L totals samples.length)
      ((processAvailable K W L g (x.pushAll samples)).drain samples.length) := by
  obtain ⟨S, Z', Z⟩ := totals
  obtain ⟨hA, hB, hovl, hout, -, hZ⟩ := h
  have hlen : (x.pushAll samples).inA.length = levelAfter L S + samples.length := by
    simp [ChannelState.pushAll, hA]
  have hqueues : (x.pushAll samples).inA.length = (x.pushAll samples).inB.length := by
    simp [ChannelState.pushAll, hA, hB]
  have hlevelA := length_processAvailable_inA K W g hL (x.pushAll samples)
  have hlevelB := processAvailable_queuesAgree K W g hL hqueues
  have hgrown := length_processAvailable_outQ K W g hL (x := x.pushAll samples) hovl
  have hcount := levelAfter_add_blockCount hL (levelAfter L S + samples.length)
  have hle := levelAfter_le hL (S + samples.length)
  rw [hlen, levelAfter_levelAfter_add hL] at hlevelA
  rw [levelAfter_levelAfter_add hL] at hcount
  rw [hlen] at hgrown
  have hpushed : (x.pushAll samples).outQ = x.outQ := rfl
  rw [hpushed] at hgrown
  simp only at hout
  constructor
  case levelA => exact hlevelA
  case levelB => exact hlevelB.symm.trans hlevelA
  case overlap => exact length_processAvailable_ovl K W g hL hovl
  case output =>
    rw [ChannelState.drain_outQ_eq_drop, List.length_drop, hgrown]
    simp only [nextTotals]
    omega
  case latency =>
    rw [ChannelState.drain_lat, ChannelState.shortfall, hgrown]
    simp only [nextTotals]
    omega
  case zeros_le => exact max_le hZ hle

end

theorem addressed_of_mem_callback {c : Chan} {samples : List (F64 × F64)} {i : Instr} (hi : i ∈ callback c samples) :
    addressed i = some c := by
  rcases List.mem_append.1 hi with hpush | hend
  · exact addressed_of_mem_pushN hpush
  · rcases List.mem_pair.1 hend with rfl | rfl <;> rfl

theorem foldl_channelAfter_callback (p : Config.Params) (e : EngineState) (c : Chan) (x : ChannelState)
    {samples : List (F64 × F64)} (hlen : samples.length < 2 ^ 20) :
    (callback c samples).foldl (channelAfter p e) x =
      (processAvailable (kernelOf p) (windowOf p) e.blockLength e.gain (x.pushAll samples)).drain samples.length := by
  have himm : (BitVec.ofNat 20 samples.length).toNat = samples.length := Nat.mod_eq_of_lt hlen
  rw [callback, List.foldl_append, foldl_channelAfter_pushN]
  simp only [List.foldl_cons, List.foldl_nil, channelAfter, himm]

/-- The recurrence holds after any callbacks, by induction on their number. -/
theorem afterCallbacks_foldl (p : Config.Params) (e : EngineState) (c : Chan) {calls : List (List (F64 × F64))}
    (hlen : ∀ samples ∈ calls, samples.length < 2 ^ 20) {totals : Nat × Nat × Nat} {x : ChannelState}
    (h : AfterCallbacks e.blockLength totals x) :
    AfterCallbacks e.blockLength ((calls.map List.length).foldl (nextTotals e.blockLength) totals)
      ((calls.flatMap (callback c)).foldl (channelAfter p e) x) := by
  induction calls generalizing totals x with
  | nil => exact h
  | cons samples calls ih =>
    obtain ⟨hsamples, hcalls⟩ := List.forall_mem_cons.1 hlen
    rw [List.flatMap_cons, List.foldl_append, foldl_channelAfter_callback p e c x hsamples]
    exact ih hcalls (h.callback (blockLength_pos e) _ _ _ samples)

/-- Settles O28: the channel after the callbacks is the one of the recurrence. -/
theorem latencyFollowsTheRecurrence : Obligations.LatencyFollowsTheRecurrence := by
  intro p c calls t _ hlen ht htf L totals r
  have haddressed : ∀ i ∈ calls.flatMap (callback c), addressed i = some c := fun i hi => by
    obtain ⟨samples, -, hmem⟩ := List.mem_flatMap.1 hi
    exact addressed_of_mem_callback hmem
  obtain ⟨-, -, -, hch⟩ := runAll_addressed haddressed ht htf
  rw [State.init_ch] at hch
  have hafter := afterCallbacks_foldl p (State.init p).eng c hlen (afterCallbacks_init (blockLength_pos _))
  rw [← callbackTotals_eq_foldl] at hafter
  rw [hch]
  exact ⟨hafter.levelA, hafter.levelB, hafter.output, hafter.latency, hafter.zeros_le⟩

end Sys2Proof.Machine
end

section
/-! Special values and zeros (R95; O36). -/

namespace Sys2Proof.Machine

/-! ### Kinds of operands -/

theorem isNaN_eq_false_of_isInf {a : F64} (h : isInf a = true) : isNaN a = false := by
  simp_all [isNaN, isInf]

theorem fMag_eq_zero_of_isZero {a : F64} (h : isZero a = true) : fMag a = 0 := (isZero_iff_fMag.1 h).2

theorem isZero_packF64_zero (s : Bool) : isZero (packF64 s 0) = true := by cases s <;> decide

/-! ### Sums -/

theorem isNaN_fadd_of_isNaN {a b : F64} (h : isNaN a = true ∨ isNaN b = true) : isNaN (fadd a b) = true := by
  rw [fadd, if_pos (by simpa using h)]
  exact isNaN_nanResult ..

theorem isNaN_fadd_of_opposite_infinities {a b : F64} (ha : isInf a = true) (hb : isInf b = true)
    (hs : fSign a ≠ fSign b) : isNaN (fadd a b) = true := by
  simp [fadd, isNaN_eq_false_of_isInf, ha, hb, hs]

theorem fadd_of_isInf_left {a b : F64} (ha : isInf a = true) (hb : isFinite b = true) : fadd a b = a := by
  simp [fadd, isNaN_eq_false_of_isInf ha, not_isNaN_of_isFinite hb, not_isInf_of_isFinite hb, ha]

theorem fadd_of_isInf_right {a b : F64} (ha : isFinite a = true) (hb : isInf b = true) : fadd a b = b := by
  simp [fadd, isNaN_eq_false_of_isInf hb, not_isNaN_of_isFinite ha, not_isInf_of_isFinite ha, hb]

/-- A zero of either sign added to a number that is not zero: the sum does not see the zero's sign, so the case of
`+0.0` tells it. -/
theorem fadd_of_isZero_left {z a : F64} (hz : isZero z = true) (hn : isNaN a = false) (h0 : isZero a = false) :
    fadd z a = a := by
  have hzfin := isFinite_of_isZero hz
  rcases kind_cases a with hfin | hinf | hnan
  · have hunits : fUnits z = 0 := fUnits_eq_zero.2 (fMag_eq_zero_of_isZero hz)
    have hne : fUnits a ≠ 0 := mt fUnits_eq_zero.1 (fMag_pos hfin h0).ne'
    have hzero : fUnits 0 = 0 := by decide
    have hneg : a ≠ 0x8000000000000000 := by
      rintro rfl
      exact absurd h0 (by decide)
    calc fadd z a = faddFinite z a := fadd_of_isFinite hzfin hfin
      _ = faddFinite a 0 := by simp only [faddFinite, hunits, hzero, zero_add, add_zero, if_neg hne]
      _ = a := by rw [faddFinite_zero hfin, if_neg hneg]
  · exact fadd_of_isInf_right hzfin hinf
  · simp [hn] at hnan

theorem isZero_fadd_of_isZero {a b : F64} (ha : isZero a = true) (hb : isZero b = true) :
    isZero (fadd a b) = true := by
  have hsum : fUnits a + fUnits b = 0 := by
    rw [fUnits_eq_zero.2 (fMag_eq_zero_of_isZero ha), fUnits_eq_zero.2 (fMag_eq_zero_of_isZero hb), add_zero]
  rw [fadd_of_isFinite (isFinite_of_isZero ha) (isFinite_of_isZero hb), faddFinite]
  simp only [if_pos hsum]
  exact isZero_packF64_zero _

/-! ### Products -/

theorem isNaN_fmul_of_isNaN {a b : F64} (h : isNaN a = true ∨ isNaN b = true) : isNaN (fmul a b) = true := by
  simp only [fmul]
  rw [if_pos (by simpa using h)]
  exact isNaN_nanResult ..

theorem isNaN_fmul_of_isZero_isInf {a b : F64} (ha : isZero a = true) (hb : isInf b = true) :
    isNaN (fmul a b) = true ∧ isNaN (fmul b a) = true := by
  have hfin := isFinite_of_isZero ha
  simp [fmul, not_isNaN_of_isFinite hfin, isNaN_eq_false_of_isInf hb, ha, hb]

theorem fmul_of_isZero_left {a b : F64} (ha : isZero a = true) (hb : isFinite b = true) :
    fmul a b = packF64 (fSign a != fSign b) 0 := by
  rw [fmul_of_isFinite (isFinite_of_isZero ha) hb, fMag_eq_zero_of_isZero ha, zero_mul, roundMag_zero]

theorem fmul_of_isZero_right {a b : F64} (ha : isFinite a = true) (hb : isZero b = true) :
    fmul a b = packF64 (fSign a != fSign b) 0 := by
  rw [fmul_of_isFinite ha (isFinite_of_isZero hb), fMag_eq_zero_of_isZero hb, mul_zero, roundMag_zero]

theorem isZero_fmul_of_isZero_left {a b : F64} (ha : isZero a = true) (hb : isFinite b = true) :
    isZero (fmul a b) = true := by
  rw [fmul_of_isZero_left ha hb]
  exact isZero_packF64_zero _

theorem isZero_fmul_of_isZero_right {a b : F64} (ha : isFinite a = true) (hb : isZero b = true) :
    isZero (fmul a b) = true := by
  rw [fmul_of_isZero_right ha hb]
  exact isZero_packF64_zero _

/-- Only the choice of a NaN can tell the order of the factors. -/
theorem fmul_comm_of_not_isNaN {a b : F64} (h : isNaN (fmul a b) = false) : fmul a b = fmul b a := by
  have hnan : ¬ (isNaN a || isNaN b) = true := fun hn => by
    simp [isNaN_fmul_of_isNaN (by simpa using hn)] at h
  simp only [fmul, Bool.or_comm (isNaN b), Bool.or_comm (isInf b), Bool.or_comm (isZero b),
    bne_comm (a := fSign b), Nat.mul_comm (fMag b)] at h ⊢
  rw [if_neg hnan] at h
  rw [if_neg hnan, if_neg hnan]
  by_cases hinf : (isInf a || isInf b) = true
  · rw [if_pos hinf] at h
    rw [if_pos hinf, if_pos hinf]
    have hzero : ¬ (isZero a || isZero b) = true := fun hz => by
      rw [if_pos hz, isNaN_nanResult] at h
      exact absurd h (by decide)
    rw [if_neg hzero, if_neg hzero]
  · rw [if_neg hinf, if_neg hinf]

/-! ### Quotients -/

theorem isNaN_fdiv_of_isNaN {a b : F64} (h : isNaN a = true ∨ isNaN b = true) : isNaN (fdiv a b) = true := by
  simp only [fdiv]
  rw [if_pos (by simpa using h)]
  exact isNaN_nanResult ..

/-- Settles O36. -/
theorem specialValuesFollowIeee : Obligations.SpecialValuesFollowIeee := by
  intro a b
  refine ⟨fun h => ⟨isNaN_fadd_of_isNaN h, isNaN_fmul_of_isNaN h, isNaN_fdiv_of_isNaN h⟩,
    isNaN_fmul_of_isZero_isInf, isNaN_fadd_of_opposite_infinities,
    fun ha hb => ⟨fadd_of_isInf_left ha hb, fadd_of_isInf_right hb ha⟩, fun ha hb => ?_, by decide⟩
  rw [fmul_of_isZero_left ha hb, fmul_of_isZero_right hb ha, bne_comm (a := fSign b), fSign_packF64 (by decide)]
  exact ⟨isZero_packF64_zero _, rfl, isZero_packF64_zero _, rfl⟩

end Sys2Proof.Machine
end

section
/-! `Convolve` slot by slot (R81 to R85, R93, R96, R98, R99; O29 to O32). -/

namespace Sys2Proof.Machine

open Config (Kernel Window)

/-! ### The steps of `Convolve`, slot by slot -/

@[simp] theorem length_zeroExtend (L : Nat) (a : List F64) : (zeroExtend L a).length = a.length + L := by
  simp [zeroExtend, zeros]

theorem getElem?_zeroExtend_block {L i : Nat} {a : List F64} (hi : i < a.length) : (zeroExtend L a)[i]? = a[i]? :=
  List.getElem?_append_left hi

theorem getElem?_zeroExtend_zeros {L i : Nat} {a : List F64} (hle : a.length ≤ i) (hlt : i < a.length + L) :
    (zeroExtend L a)[i]? = some 0 := by
  rw [zeroExtend, List.getElem?_append_right hle, zeros, List.getElem?_replicate_of_lt (by omega)]
  rfl

section
variable (K : Kernel) (W : Window) (N : Nat) (g : F64)

theorem slotProduct_fwdT (x x' : List F64) : slotProduct g (K.fwdT N x) (K.fwdT N x') =
    (List.range N).map fun i => fmul (fmul (K.fwd N x i) (K.fwd N x' i)) g := by
  rw [slotProduct, Kernel.fwdT, Kernel.fwdT, List.zipWith_map, List.zipWith_self]

theorem applyWindow_invT (p : List F64) :
    applyWindow W N (K.invT N p) = (List.range N).map fun i => fmul (K.inv N p i) (W N i) := by
  rw [applyWindow, Kernel.invT, List.zipWith_map, List.zipWith_self]

end

/-- Settles O29: each of the three lists is given slot by slot. -/
theorem convolveIsComputedSlotBySlot : Obligations.ConvolveIsComputedSlotBySlot := by
  intro K W L g a b ha hb N xa xb p
  refine ⟨?_, fun i hi => ?_, fun i hle hlt => ?_, length_convolve .., fun i hi => ?_⟩
  · simp only [xa, xb, N, length_zeroExtend, ha, hb]
    omega
  · exact ⟨getElem?_zeroExtend_block (ha ▸ hi), getElem?_zeroExtend_block (hb ▸ hi)⟩
  · exact ⟨getElem?_zeroExtend_zeros (by omega) (by omega), getElem?_zeroExtend_zeros (by omega) (by omega)⟩
  · rw [convolve, convolveRaw, slotProduct_fwdT, applyWindow_invT, List.getElem?_map, List.getElem?_range hi]
    rfl

/-! ### All-zero blocks (R96) -/

/-- The transforms of legal blocks have a length the kernel is used at. -/
theorem kernelLength_two_mul_two_pow {k : Nat} (h1 : 1 ≤ k) (h13 : k ≤ 13) : kernelLength (2 * 2 ^ k) :=
  ⟨k + 1, by omega, by omega, (Nat.pow_succ' ..).symm⟩

theorem forall_isZero_zeroExtend {L : Nat} {a : List F64} (h : ∀ v ∈ a, isZero v = true) :
    ∀ v ∈ zeroExtend L a, isZero v = true := by
  intro v hv
  rcases List.mem_append.1 hv with hblock | hpad
  · exact h v hblock
  · rw [List.eq_of_mem_replicate hpad]
    decide

/-- Settles O30: each of the four steps keeps zeros, slot by slot. -/
theorem zeroBlocksConvolveToZero : Obligations.ZeroBlocksConvolveToZero := by
  intro K W k g a b hK hW h1 h13 hg ha hb hza hzb
  have hN := kernelLength_two_mul_two_pow h1 h13
  have hfwd {x : List F64} (hx : x.length = 2 ^ k) (hzx : ∀ v ∈ x, isZero v = true) {i : Nat}
      (hi : i ∈ List.range (2 * 2 ^ k)) : isZero (K.fwd (2 * 2 ^ k) (zeroExtend (2 ^ k) x) i) = true :=
    (hK _ _ hN (by rw [length_zeroExtend, hx]; omega) (forall_isZero_zeroExtend hzx)).1 _ (List.mem_map_of_mem hi)
  have hproduct : ∀ v ∈ slotProduct g (K.fwdT (2 * 2 ^ k) (zeroExtend (2 ^ k) a))
      (K.fwdT (2 * 2 ^ k) (zeroExtend (2 ^ k) b)), isZero v = true := by
    rw [slotProduct_fwdT]
    refine List.forall_mem_map.2 fun i hi => isZero_fmul_of_isZero_left ?_ hg
    exact isZero_fmul_of_isZero_left (hfwd ha hza hi) (isFinite_of_isZero (hfwd hb hzb hi))
  rw [convolve, convolveRaw, applyWindow_invT]
  refine List.forall_mem_map.2 fun i hi => isZero_fmul_of_isZero_left ?_ (hW _ i hN (List.mem_range.1 hi)).1
  exact (hK _ _ hN (by simp) hproduct).2 _ (List.mem_map_of_mem hi)

/-! ### Symmetry (R98) -/

/-- Settles O31: the two factors of every slot may be swapped. -/
theorem convolveIsSymmetric : Obligations.ConvolveIsSymmetric := by
  intro K W L g a b h
  have hproduct : slotProduct g (K.fwdT (2 * L) (zeroExtend L a)) (K.fwdT (2 * L) (zeroExtend L b)) =
      slotProduct g (K.fwdT (2 * L) (zeroExtend L b)) (K.fwdT (2 * L) (zeroExtend L a)) := by
    rw [slotProduct_fwdT, slotProduct_fwdT]
    refine List.map_congr_left fun i hi => ?_
    rw [fmul_comm_of_not_isNaN (h i (List.mem_range.1 hi))]
  rw [convolve, convolve, convolveRaw, convolveRaw, hproduct]

/-! ### The first sample of a block (R99) -/

theorem convolve_getD {K : Kernel} {W : Window} {L i : Nat} {g : F64} {a b : List F64} (hi : i < 2 * L) :
    (convolve K W L g a b).getD i 0 = fmul ((convolveRaw K L g a b).getD i 0) (W (2 * L) i) := by
  have hraw : i < (convolveRaw K L g a b).length := by rwa [length_convolveRaw]
  have hconv : i < (convolve K W L g a b).length := by rwa [length_convolve]
  rw [List.getD_eq_getElem _ _ hraw, List.getD_eq_getElem _ _ hconv]
  simp [convolve, applyWindow]

/-- Settles O32: the window makes the first sample a zero, and a zero adds nothing. -/
theorem firstSampleOfABlockIsTheOldTail : Obligations.FirstSampleOfABlockIsTheOldTail := by
  intro K W k g a b ovl hW h1 h13 hovl hfin r out
  have hL : 0 < 2 ^ k := Nat.two_pow_pos k
  have hfirst : isZero (r.getD 0 0) = true := by
    rw [convolve_getD (by omega), hW _ (kernelLength_two_mul_two_pow h1 h13)]
    exact isZero_fmul_of_isZero_right hfin (by decide)
  have hout : out[0]? = some (fadd (r.getD 0 0) (ovl.getD 0 0)) :=
    getElem?_overlapAdd_out (length_convolve ..) hovl hL
  refine ⟨hfirst, fun hn h0 => ?_, fun hz => ?_⟩
  · rw [hout, fadd_of_isZero_left hfirst hn h0, List.getD_eq_getElem _ _ (hovl ▸ hL), List.getElem?_eq_getElem]
  · rw [List.getD_eq_getElem?_getD, hout]
    exact isZero_fadd_of_isZero hfirst hz

end Sys2Proof.Machine
end

section
/-! The ideal transforms (R88 to R90, R98; O37 to O39). -/

namespace Sys2Proof.Machine

/-! ### Angles -/

/-- The angle `θ(j, k)` of R88. -/
noncomputable def theta (N j k : Nat) : ℝ := 2 * Real.pi * j * k / N

/-- The lengths the kernel is used at are even. -/
theorem kernelLength.exists_half {N : Nat} (h : kernelLength N) : ∃ M, 0 < M ∧ N = 2 * M := by
  obtain ⟨j, hj, -, rfl⟩ := h
  refine ⟨2 ^ (j - 1), Nat.two_pow_pos _, ?_⟩
  rw [← Nat.pow_succ', Nat.succ_eq_add_one, Nat.sub_add_cancel (by omega)]

/-- The index `(N - j) mod N` of R89: 0 stays, any other index is counted from the end. -/
theorem sub_mod_self_cases {N j : Nat} (hj : j < N) :
    j = 0 ∧ (N - j) % N = 0 ∨ 0 < j ∧ (N - j) % N = N - j := by
  rcases Nat.eq_zero_or_pos j with rfl | hpos
  · exact .inl ⟨rfl, by simp⟩
  · exact .inr ⟨hpos, Nat.mod_eq_of_lt (by omega)⟩

/-- At the mirrored index the angle is the negative one, up to full turns. -/
theorem exists_theta_mirror {N j : Nat} (hj : j < N) (k : Nat) :
    ∃ turns : Nat, theta N ((N - j) % N) k = turns * (2 * Real.pi) - theta N j k := by
  rcases sub_mod_self_cases hj with ⟨rfl, hmod⟩ | ⟨-, hmod⟩
  · exact ⟨0, by simp [theta]⟩
  · have hN : (N : ℝ) ≠ 0 := by
      have : 0 < N := by omega
      positivity
    refine ⟨k, ?_⟩
    rw [hmod, theta, theta, Nat.cast_sub hj.le]
    field_simp

theorem cos_theta_mirror {N j : Nat} (hj : j < N) (k : Nat) :
    Real.cos (theta N ((N - j) % N) k) = Real.cos (theta N j k) := by
  obtain ⟨turns, h⟩ := exists_theta_mirror hj k
  rw [h, Real.cos_nat_mul_two_pi_sub]

theorem sin_theta_mirror {N j : Nat} (hj : j < N) (k : Nat) :
    Real.sin (theta N ((N - j) % N) k) = -Real.sin (theta N j k) := by
  obtain ⟨turns, h⟩ := exists_theta_mirror hj k
  rw [h, Real.sin_nat_mul_two_pi_sub]

theorem neg_one_pow_mirror {N j : Nat} (hN : kernelLength N) (hj : j < N) :
    (-1 : ℝ) ^ ((N - j) % N) = (-1) ^ j := by
  obtain ⟨M, -, rfl⟩ := hN.exists_half
  refine neg_one_pow_congr ?_
  rw [Nat.even_iff, Nat.even_iff]
  rcases sub_mod_self_cases hj with ⟨rfl, hmod⟩ | ⟨-, hmod⟩
  · rw [hmod]
  · rw [hmod]
    omega

/-! ### The ideal transforms, slot by slot -/

theorem slotMeaning_two_mul {k : Nat} (hk : 1 ≤ k) : slotMeaning (2 * k) = .re k := by
  rw [slotMeaning, if_neg (by omega), if_neg (by omega), if_pos (by omega), Nat.mul_div_cancel_left _ two_pos]

theorem slotMeaning_two_mul_add_one {k : Nat} (hk : 1 ≤ k) : slotMeaning (2 * k + 1) = .im k := by
  rw [slotMeaning, if_neg (by omega), if_neg (by omega), if_neg (by omega), show (2 * k + 1) / 2 = k by omega]

section
variable {σ ρ : ℝ} {N : Nat} {x X y : Nat → ℝ}

theorem IdealFwd.dc (h : IdealFwd σ N x X) (hN : 0 < N) : X 0 = ∑ j ∈ Finset.range N, x j := h 0 hN

theorem IdealFwd.nyquist (h : IdealFwd σ N x X) (hN : 1 < N) : X 1 = ∑ j ∈ Finset.range N, (-1) ^ j * x j := h 1 hN

theorem IdealFwd.re (h : IdealFwd σ N x X) {k : Nat} (hk : 1 ≤ k) (hkN : 2 * k < N) :
    X (2 * k) = ∑ j ∈ Finset.range N, x j * Real.cos (theta N j k) := by
  rw [h _ hkN, slotMeaning_two_mul hk]
  rfl

theorem IdealFwd.im (h : IdealFwd σ N x X) {k : Nat} (hk : 1 ≤ k) (hkN : 2 * k + 1 < N) :
    X (2 * k + 1) = σ * ∑ j ∈ Finset.range N, x j * Real.sin (theta N j k) := by
  rw [h _ hkN, slotMeaning_two_mul_add_one hk]
  rfl

theorem IdealInv.sample (h : IdealInv σ ρ N X y) {j : Nat} (hj : j < N) :
    y j = ρ / N * (X 0 + (-1) ^ j * X 1 + 2 * ∑ k ∈ Finset.Ico 1 (N / 2),
      (X (2 * k) * Real.cos (theta N j k) + σ * X (2 * k + 1) * Real.sin (theta N j k))) := h j hj

theorem IsKSign.mul_self (h : IsKSign σ) : σ * σ = 1 := by
  rcases h with rfl | rfl <;> norm_num

end

/-- Settles O37: the cosine terms are even in `j` and the sine terms odd. -/
theorem kernelSignsGiveMirrorImages : Obligations.KernelSignsGiveMirrorImages := by
  intro ρ N p y y' hN h h' j hj
  rw [h'.sample hj, h.sample (Nat.mod_lt _ (by omega)), neg_one_pow_mirror hN hj]
  have hterm (k : Nat) : p (2 * k) * Real.cos (theta N j k) + -1 * p (2 * k + 1) * Real.sin (theta N j k) =
      p (2 * k) * Real.cos (theta N ((N - j) % N) k) + 1 * p (2 * k + 1) * Real.sin (theta N ((N - j) % N) k) := by
    rw [cos_theta_mirror hj, sin_theta_mirror hj]
    ring
  simp only [hterm]

/-! ### The inversion formula of the discrete Fourier transform (R90) -/

/-- How much of the sample `m` the inverse transform of the forward transform brings to the sample `j`, but for the
factor `ρ / N`. -/
noncomputable def inversionWeight (N j m : Nat) : ℝ :=
  1 + (-1) ^ j * (-1) ^ m + 2 * ∑ k ∈ Finset.Ico 1 (N / 2), Real.cos (theta N j k - theta N m k)

/-- The transforms are linear, and `cos (α - β)` brings their angles together; the sign of the sine terms is squared. -/
theorem IdealInv.sample_of_idealFwd {σ ρ : ℝ} {N : Nat} {x X y : Nat → ℝ} (hσ : IsKSign σ) (hN : 1 < N)
    (hX : IdealFwd σ N x X) (hy : IdealInv σ ρ N X y) {j : Nat} (hj : j < N) :
    y j = ρ / N * ∑ m ∈ Finset.range N, x m * inversionWeight N j m := by
  have hbin : ∀ k ∈ Finset.Ico 1 (N / 2),
      X (2 * k) * Real.cos (theta N j k) + σ * X (2 * k + 1) * Real.sin (theta N j k) =
        ∑ m ∈ Finset.range N, x m * Real.cos (theta N j k - theta N m k) := by
    intro k hk
    obtain ⟨hk, hkN⟩ := Finset.mem_Ico.1 hk
    rw [hX.re hk (by omega), hX.im hk (by omega), ← mul_assoc, hσ.mul_self, one_mul, Finset.sum_mul, Finset.sum_mul,
      ← Finset.sum_add_distrib]
    refine Finset.sum_congr rfl fun m _ => ?_
    rw [Real.cos_sub]
    ring
  rw [hy.sample hj, Finset.sum_congr rfl hbin, Finset.sum_comm, hX.dc (by omega), hX.nyquist hN, Finset.mul_sum,
    Finset.mul_sum, ← Finset.sum_add_distrib, ← Finset.sum_add_distrib]
  congr 1
  refine Finset.sum_congr rfl fun m _ => ?_
  rw [inversionWeight, ← Finset.mul_sum]
  ring

theorem inversionWeight_self {M : Nat} (hM : 0 < M) (j : Nat) : inversionWeight (2 * M) j j = (2 * M : ℕ) := by
  rw [inversionWeight, ← mul_pow]
  simp only [sub_self, Real.cos_zero, Finset.sum_const, Nat.card_Ico, Nat.mul_div_cancel_left _ two_pos]
  rw [nsmul_one, Nat.cast_sub hM]
  push_cast
  ring

/-- Half the angle between two samples' first bins is no multiple of `π`. -/
theorem sin_half_angle_ne_zero {N j m : Nat} (hj : j < N) (hm : m < N) (hne : j ≠ m) :
    Real.sin (Real.pi * (j - m) / N) ≠ 0 := by
  have hN : (0 : ℝ) < N := by
    have : 0 < N := by omega
    positivity
  have hj' : (j : ℝ) < N := by exact_mod_cast hj
  have hm' : (m : ℝ) < N := by exact_mod_cast hm
  have hj0 : (0 : ℝ) ≤ j := Nat.cast_nonneg j
  have hm0 : (0 : ℝ) ≤ m := Nat.cast_nonneg m
  have hdiff : (j : ℝ) - m ≠ 0 := sub_ne_zero.2 (by exact_mod_cast hne)
  rw [Ne, Real.sin_eq_zero_iff_of_lt_of_lt]
  · exact div_ne_zero (mul_ne_zero Real.pi_ne_zero hdiff) hN.ne'
  · rw [lt_div_iff₀ hN]
    nlinarith [Real.pi_pos]
  · rw [div_lt_iff₀ hN]
    nlinarith [Real.pi_pos]

/-- The cosines of equidistant angles with 0 counted half: the library's sum, with `2 sin α cos β` written as a sum. -/
theorem sin_mul_sum_cos_from_one {M : Nat} (hM : 0 < M) (φ : ℝ) :
    Real.sin φ * (1 + 2 * ∑ k ∈ Finset.Ico 1 M, Real.cos (2 * φ * k)) = Real.sin (2 * M * φ - φ) := by
  have hsum := Real.sin_mul_sum_cos M (2 * φ) 0
  rw [Finset.range_eq_Ico, Finset.sum_eq_sum_Ico_succ_bot hM, mul_div_cancel_left₀ φ two_ne_zero,
    show M * (2 * φ) / 2 = M * φ by ring, show (M - 1) * (2 * φ) / 2 + 0 = M * φ - φ by ring] at hsum
  simp only [add_zero, Nat.cast_zero, mul_zero, Real.cos_zero, zero_add] at hsum
  have hprod := Real.two_mul_sin_mul_cos (M * φ) (M * φ - φ)
  rw [sub_sub_cancel, show M * φ + (M * φ - φ) = 2 * M * φ - φ by ring] at hprod
  linear_combination 2 * hsum + hprod

/-- With `φ = π (j - m) / N` the cosines sum up to `sin (π (j - m) - φ) / sin φ`, which cancels the two single terms. -/
theorem inversionWeight_of_ne {M j m : Nat} (hj : j < 2 * M) (hm : m < 2 * M) (hne : j ≠ m) :
    inversionWeight (2 * M) j m = 0 := by
  have hM : 0 < M := by omega
  have hM0 : (M : ℝ) ≠ 0 := by positivity
  have hsin := sin_half_angle_ne_zero hj hm hne
  set φ : ℝ := Real.pi * (j - m) / (2 * M : ℕ) with hφ
  have hangle (k : Nat) : theta (2 * M) j k - theta (2 * M) m k = 2 * φ * k := by
    rw [theta, theta, hφ]
    ring
  have hturns : 2 * M * φ = j * Real.pi - m * Real.pi := by
    rw [hφ]
    push_cast
    field_simp
  have hsum := sin_mul_sum_cos_from_one hM φ
  rw [hturns, Real.sin_sub, Real.sin_sub, Real.cos_sub] at hsum
  simp only [Real.sin_nat_mul_pi, Real.cos_nat_mul_pi] at hsum
  refine (mul_eq_zero.1 ?_).resolve_left hsin
  rw [inversionWeight]
  simp only [hangle, Nat.mul_div_cancel_left _ two_pos]
  linear_combination hsum

/-- Settles O38: only the sample itself has a weight, which is `N`. -/
theorem idealKernelRoundTripScales : Obligations.IdealKernelRoundTripScales := by
  intro σ ρ N x X y hσ hN hX hy j hj
  obtain ⟨M, hM, rfl⟩ := hN.exists_half
  have hweight : ∀ m ∈ Finset.range (2 * M), m ≠ j → x m * inversionWeight (2 * M) j m = 0 := fun m hm hne => by
    rw [inversionWeight_of_ne hj (Finset.mem_range.1 hm) hne.symm, mul_zero]
  have hM0 : ((2 * M : ℕ) : ℝ) ≠ 0 := by positivity
  rw [hy.sample_of_idealFwd hσ (by omega) hX hj, Finset.sum_eq_single_of_mem j (Finset.mem_range.2 hj) hweight,
    inversionWeight_self hM]
  field_simp

/-! ### Four points (R98) -/

/-- At four points the angle of bin 1 is a quarter turn per sample. -/
theorem theta_four (j : Nat) : theta 4 j 1 = j * (Real.pi / 2) := by
  rw [theta]
  push_cast
  ring

theorem cos_theta_four : Real.cos (theta 4 0 1) = 1 ∧ Real.cos (theta 4 1 1) = 0 ∧ Real.cos (theta 4 2 1) = -1 ∧
    Real.cos (theta 4 3 1) = 0 := by
  have hthree : (3 : ℝ) * (Real.pi / 2) = Real.pi / 2 + Real.pi := by ring
  simp only [theta_four, Nat.cast_zero, Nat.cast_one, Nat.cast_ofNat, hthree, Real.cos_add_pi]
  refine ⟨by simp, by simp, ?_, by simp⟩
  rw [mul_div_cancel₀ _ two_ne_zero, Real.cos_pi]

theorem sin_theta_four : Real.sin (theta 4 0 1) = 0 ∧ Real.sin (theta 4 1 1) = 1 ∧ Real.sin (theta 4 2 1) = 0 ∧
    Real.sin (theta 4 3 1) = -1 := by
  have hthree : (3 : ℝ) * (Real.pi / 2) = Real.pi / 2 + Real.pi := by ring
  simp only [theta_four, Nat.cast_zero, Nat.cast_one, Nat.cast_ofNat, hthree, Real.sin_add_pi]
  refine ⟨by simp, by simp, ?_, by simp⟩
  rw [mul_div_cancel₀ _ two_ne_zero, Real.sin_pi]

/-- The packed transform of two samples, extended by two zeros. -/
theorem idealFwd_four {σ a0 a1 : ℝ} {X : Nat → ℝ}
    (h : IdealFwd σ 4 (fun j => if j = 0 then a0 else if j = 1 then a1 else 0) X) :
    X 0 = a0 + a1 ∧ X 1 = a0 - a1 ∧ X 2 = a0 ∧ X 3 = σ * a1 := by
  obtain ⟨hc0, hc1, -, -⟩ := cos_theta_four
  obtain ⟨hs0, hs1, -, -⟩ := sin_theta_four
  have hre := h.re (k := 1) le_rfl (by decide)
  have him := h.im (k := 1) le_rfl (by decide)
  rw [h.dc (by decide), h.nyquist (by decide), hre, him]
  simp [Finset.sum_range_succ, hc0, hc1, hs0, hs1, sub_eq_add_neg]

/-- The four samples of the inverse transform of a packed `X`. -/
theorem idealInv_four {σ ρ : ℝ} {X y : Nat → ℝ} (h : IdealInv σ ρ 4 X y) :
    y 0 = ρ / 4 * (X 0 + X 1 + 2 * X 2) ∧ y 1 = ρ / 4 * (X 0 - X 1 + 2 * (σ * X 3)) ∧
    y 2 = ρ / 4 * (X 0 + X 1 - 2 * X 2) ∧ y 3 = ρ / 4 * (X 0 - X 1 - 2 * (σ * X 3)) := by
  obtain ⟨hc0, hc1, hc2, hc3⟩ := cos_theta_four
  obtain ⟨hs0, hs1, hs2, hs3⟩ := sin_theta_four
  have hbin : Finset.Ico 1 (4 / 2) = {1} := rfl
  rw [h.sample (j := 0) (by decide), h.sample (j := 1) (by decide), h.sample (j := 2) (by decide),
    h.sample (j := 3) (by decide)]
  simp only [hbin, Finset.sum_singleton, hc0, hc1, hc2, hc3, hs0, hs1, hs2, hs3]
  refine ⟨?_, ?_, ?_, ?_⟩ <;>
  · push_cast
    ring

/-- Settles O39: the product of the two imaginary slots brings `σ` squared, the inverse transform a third `σ`. -/
theorem fourPointConvolverInIdealArithmetic : Obligations.FourPointConvolverInIdealArithmetic := by
  intro σ ρ g a0 a1 b0 b1 ta tb y hσ ha hb hy
  obtain ⟨ha0, ha1, ha2, ha3⟩ := idealFwd_four ha
  obtain ⟨hb0, hb1, hb2, hb3⟩ := idealFwd_four hb
  obtain ⟨hy0, hy1, hy2, hy3⟩ := idealInv_four hy
  have himag : ta 3 * tb 3 * g = a1 * b1 * g := by
    rw [ha3, hb3]
    linear_combination a1 * b1 * g * hσ.mul_self
  rw [ha0, hb0, ha1, hb1] at hy0 hy1 hy2 hy3
  rw [ha2, hb2] at hy0 hy2
  rw [himag] at hy1 hy3
  refine ⟨⟨ha0, ha1, ha2, ha3⟩, ?_, ?_, ?_, ?_⟩
  · rw [hy0]
    ring
  · rw [hy1]
    ring
  · rw [hy2]
    ring
  · rw [hy3]
    ring

end Sys2Proof.Machine
end

section
/-! The commands that reconfigure the block (R100 to R104; O40, O41, O43, O44): each is refused, rejected, or sets the
stored exponent and zeroes both overlap buffers. `RESET` sets the exponent that stands. -/

namespace Sys2Proof.Machine

/-! ### The operands -/

/-- The exponents that R101 allows, by the number that is stored for them (R14). -/
theorem legalExponent_iff {n : Nat} : 1 ≤ n ∧ n ≤ 13 ↔ ∃ k : Fin 13, n = k.val + 1 := by
  constructor
  · rintro ⟨h1, h13⟩
    exact ⟨⟨n - 1, by omega⟩, (Nat.sub_add_cancel h1).symm⟩
  · rintro ⟨k, rfl⟩
    omega

/-- The powers of two that R100 allows, by the number that is stored for them (R14). -/
theorem legalLength_iff {n : Nat} :
    (∃ k, 1 ≤ k ∧ k ≤ 13 ∧ n = 2 ^ k) ↔ ∃ k : Fin 13, n = 2 ^ (k.val + 1) := by
  constructor
  · rintro ⟨e, h1, h13, hn⟩
    obtain ⟨k, rfl⟩ := legalExponent_iff.1 ⟨h1, h13⟩
    exact ⟨k, hn⟩
  · rintro ⟨k, hn⟩
    exact ⟨k.val + 1, by omega, k.isLt, hn⟩

/-- The test of R100 lets a number through exactly if it is a legal length. -/
theorem validLength_iff {n : Nat} : validLength n = true ↔ ∃ k : Fin 13, n = 2 ^ (k.val + 1) := by
  rw [← legalLength_iff]
  simp only [validLength, Bool.and_eq_true, decide_eq_true_eq]
  constructor
  · rintro ⟨⟨h2, h8192⟩, hand⟩
    obtain ⟨k, rfl⟩ := (Nat.and_sub_one_eq_zero_iff_isPowerOfTwo (by omega)).1 hand
    exact ⟨k, (Nat.pow_le_pow_iff_right (a := 2) (by decide)).1 h2,
      (Nat.pow_le_pow_iff_right (a := 2) (m := 13) (by decide)).1 h8192, rfl⟩
  · rintro ⟨k, h1, h13, rfl⟩
    exact ⟨⟨Nat.pow_le_pow_right two_pos h1, Nat.pow_le_pow_right two_pos h13⟩,
      (Nat.and_sub_one_eq_zero_iff_isPowerOfTwo (by simp)).2 ⟨k, rfl⟩⟩

theorem expOfLength_two_pow (k : Fin 13) : expOfLength (2 ^ (k.val + 1)) = k := by
  simp [expOfLength, Nat.log2_two_pow]

theorem validExp_iff {n : Nat} : validExp n = true ↔ ∃ k : Fin 13, n = k.val + 1 := by
  simp [validExp, legalExponent_iff]

theorem expOfImm_succ (k : Fin 13) : expOfImm (k.val + 1) = k := by
  simp [expOfImm]

/-- A legal length fits the immediate of a header. -/
theorem toNat_ofNat_length (k : Fin 13) : (BitVec.ofNat 20 (2 ^ (k.val + 1))).toNat = 2 ^ (k.val + 1) := by
  rw [BitVec.toNat_ofNat, Nat.mod_eq_of_lt (Nat.pow_lt_pow_right Nat.one_lt_two (by omega))]

/-! ### The exponent a command sets -/

/-- `SETBLK`, `SETEXP` or `RESET`. -/
def IsReconfiguration (i : Instr) : Prop := (∃ x, i = .setblk x) ∨ (∃ x, i = .setexp x) ∨ i = .reset

theorem isReconfiguration_setblk (len : Imm) : IsReconfiguration (.setblk len) := .inl ⟨len, rfl⟩

theorem isReconfiguration_setexp (x : Imm) : IsReconfiguration (.setexp x) := .inr (.inl ⟨x, rfl⟩)

/-- The exponent that a completed reconfiguration stores; `none` if the operand is not legal. -/
def newExp (e : EngineState) : Instr → Option (Fin 13)
  | .setblk len => if validLength (immNat len) then some (expOfLength (immNat len)) else none
  | .setexp x => if validExp (immNat x) then some (expOfImm (immNat x)) else none
  | .reset => some e.blkExp
  | .push _ _ _ | .proc _ | .drain _ _ | .setgain _ | .rdcsr _ _ => none

/-- The end of a reconfiguration, given the exponent. -/
def State.concludeReconfiguration (s : State) : Option (Fin 13) → Result
  | some k => respondOk (s.reconfigure k) []
  | none => reject s .cfgErr

theorem exec_reconfiguration {i : Instr} (hi : IsReconfiguration i) (s : State) :
    exec i s = whenUnfaulted s (s.concludeReconfiguration (newExp s.eng i)) := by
  rcases hi with ⟨x, rfl⟩ | ⟨x, rfl⟩ | rfl
  · rw [exec, execSetblk, newExp]
    cases validLength (immNat x) <;> rfl
  · rw [exec, execSetexp, newExp]
    cases validExp (immNat x) <;> rfl
  · rfl

/-- The checked reading of an operand that encodes a stored exponent. -/
theorem checkedOperand_eq_some {code : Fin 13 → Nat} {valid : Nat → Bool} {read : Nat → Fin 13} {n : Nat} {k : Fin 13}
    (hvalid : valid n = true ↔ ∃ k, n = code k) (hread : ∀ k, read (code k) = k) :
    (if valid n then some (read n) else none) = some k ↔ n = code k := by
  rw [Option.ite_none_right_eq_some, hvalid, Option.some_inj]
  constructor
  · rintro ⟨⟨j, rfl⟩, hk⟩
    rw [← hk, hread]
  · rintro rfl
    exact ⟨⟨k, rfl⟩, hread k⟩

theorem newExp_setblk {e : EngineState} {len : Imm} {k : Fin 13} :
    newExp e (.setblk len) = some k ↔ len.toNat = 2 ^ (k.val + 1) :=
  checkedOperand_eq_some validLength_iff expOfLength_two_pow

theorem newExp_setexp {e : EngineState} {x : Imm} {k : Fin 13} :
    newExp e (.setexp x) = some k ↔ x.toNat = k.val + 1 :=
  checkedOperand_eq_some validExp_iff expOfImm_succ

/-- The same command after its own completion sets the same exponent. -/
theorem newExp_idem {e : EngineState} {i : Instr} {k : Fin 13} (h : newExp e i = some k) :
    newExp { e with blkExp := k } i = some k := by
  cases i with
  | reset => rfl
  | push _ _ _ | proc _ | drain _ _ | setblk _ | setexp _ | setgain _ | rdcsr _ _ => exact h

/-! ### The three outcomes -/

section
variable {s : State} {i : Instr}

theorem exec_reconfiguration_faulted {f : Cause × Chan} (hi : IsReconfiguration i) (hf : s.eng.fault = some f) :
    exec i s = .next (s.answer .fault []) := by
  rw [exec_reconfiguration hi, whenUnfaulted_some hf]

theorem exec_reconfiguration_rejected (hi : IsReconfiguration i) (hf : Unfaulted s) (hk : newExp s.eng i = none) :
    exec i s = .next (s.answer .cfgErr []) := by
  rw [exec_reconfiguration hi, whenUnfaulted_none hf, hk]
  rfl

theorem exec_reconfiguration_completed {k : Fin 13} (hi : IsReconfiguration i) (hf : Unfaulted s)
    (hk : newExp s.eng i = some k) : exec i s = .next ((s.reconfigure k).answer .ok []) := by
  rw [exec_reconfiguration hi, whenUnfaulted_none hf, hk]
  rfl

theorem exists_reconfigured {k : Fin 13} (hi : IsReconfiguration i) (hf : Unfaulted s) (hk : newExp s.eng i = some k) :
    ∃ t, exec i s = .next t ∧ Reconfigured s t (2 ^ (k.val + 1)) :=
  ⟨_, exec_reconfiguration_completed hi hf hk, reconfigured_reconfigure s k⟩

theorem exists_rejected (hi : IsReconfiguration i) (hf : Unfaulted s) (hk : newExp s.eng i = none) :
    ∃ t, exec i s = .next t ∧ Rejected s t .cfgErr :=
  ⟨_, exec_reconfiguration_rejected hi hf hk, rfl, answered_answer s .cfgErr []⟩

end

/-! ### The block it leaves -/

/-- What a reconfiguration leaves of the block depends on the engine registers, the queues and the latencies alone. -/
theorem reconfigure_block_congr {s s' : State} (heng : s'.eng = s.eng)
    (hch : ∀ c, ∃ o, s'.ch c = { s.ch c with ovl := o }) (k : Fin 13) :
    (s'.reconfigure k).block = (s.reconfigure k).block := by
  refine BlockState.ext_ch ?_ fun c => ?_
  · change (s'.reconfigure k).eng = (s.reconfigure k).eng
    rw [State.reconfigure_eng, State.reconfigure_eng, heng]
  · change (s'.reconfigure k).ch c = (s.reconfigure k).ch c
    obtain ⟨o, ho⟩ := hch c
    rw [State.reconfigure_ch, State.reconfigure_ch, ho]
    rfl

/-- A second reconfiguration to the same exponent, after an answer, changes nothing of the block (R103). -/
theorem reconfigure_answer_reconfigure_block (s : State) (k : Fin 13) (st : Status) (d : List Word64) :
    (((s.reconfigure k).answer st d).reconfigure k).block = (s.reconfigure k).block := by
  refine BlockState.ext_ch rfl fun c => ?_
  cases c <;> rfl

/-- A reconfiguration has the same outcome the second time (R103). -/
theorem exec_reconfiguration_twice {s t u : State} {i : Instr} (hi : IsReconfiguration i) (h : exec i s = .next t)
    (h' : exec i t = .next u) :
    u.block = t.block ∧ ∃ st, t.responses = s.responses ++ [⟨st, []⟩] ∧ u.responses = t.responses ++ [⟨st, []⟩] := by
  cases hf : s.eng.fault with
  | some f =>
    cases (exec_reconfiguration_faulted hi hf).symm.trans h
    cases (exec_reconfiguration_faulted (s := s.answer .fault []) hi hf).symm.trans h'
    exact ⟨rfl, .fault, rfl, rfl⟩
  | none =>
    cases hk : newExp s.eng i with
    | none =>
      cases (exec_reconfiguration_rejected hi hf hk).symm.trans h
      cases (exec_reconfiguration_rejected (s := s.answer .cfgErr []) hi hf hk).symm.trans h'
      exact ⟨rfl, .cfgErr, rfl, rfl⟩
    | some k =>
      cases (exec_reconfiguration_completed hi hf hk).symm.trans h
      have hagain := exec_reconfiguration_completed (s := (s.reconfigure k).answer .ok []) hi hf (newExp_idem hk)
      cases hagain.symm.trans h'
      exact ⟨reconfigure_answer_reconfigure_block s k .ok [], .ok, rfl, rfl⟩

/-! ### The obligations -/

/-- Settles O40: the operands past the test of R100 are the legal lengths. -/
theorem setblkSetsExactlyTheLegalLengths : Obligations.SetblkSetsExactlyTheLegalLengths := by
  intro s len hf
  rw [legalLength_iff]
  constructor
  · rintro ⟨k, hk⟩
    rw [hk]
    exact exists_reconfigured (isReconfiguration_setblk len) hf (newExp_setblk.2 hk)
  · intro hnone
    exact exists_rejected (isReconfiguration_setblk len) hf
      (Option.eq_none_iff_forall_ne_some.2 fun k hk => hnone ⟨k, newExp_setblk.1 hk⟩)

/-- Settles O41: `SETEXP e` and `SETBLK 2^e` set the same exponent. -/
theorem setexpIsSetblkOfThePowerOfTwo : Obligations.SetexpIsSetblkOfThePowerOfTwo := by
  intro s x hf
  constructor
  · intro h1 h13
    obtain ⟨k, hk⟩ := legalExponent_iff.1 ⟨h1, h13⟩
    have hsetexp : newExp s.eng (.setexp x) = some k := newExp_setexp.2 hk
    have hsetblk : newExp s.eng (.setblk (BitVec.ofNat 20 (2 ^ (k.val + 1)))) = some k :=
      newExp_setblk.2 (toNat_ofNat_length k)
    rw [hk]
    exact ⟨exists_reconfigured (isReconfiguration_setexp x) hf hsetexp,
      (exec_reconfiguration_completed (isReconfiguration_setexp x) hf hsetexp).trans
        (exec_reconfiguration_completed (isReconfiguration_setblk _) hf hsetblk).symm⟩
  · intro hout
    refine exists_rejected (isReconfiguration_setexp x) hf (Option.eq_none_iff_forall_ne_some.2 fun k hk => ?_)
    have hx : x.toNat = k.val + 1 := newExp_setexp.1 hk
    omega

/-- Settles O43. -/
theorem reconfigurationIsIdempotent : Obligations.ReconfigurationIsIdempotent := by
  refine ⟨fun _ _ _ _ => exec_reconfiguration_twice, fun s hf => ?_⟩
  have hpresent : newExp s.eng (.setblk (BitVec.ofNat 20 s.blockLength)) = some s.eng.blkExp :=
    newExp_setblk.2 (toNat_ofNat_length s.eng.blkExp)
  obtain ⟨t, hexec, hlength, -, -, hch, -⟩ := exists_reconfigured (isReconfiguration_setblk _) hf hpresent
  exact ⟨t, hexec, hlength, fun c => (hch c).1⟩

/-- Settles O44: both states come to the block of a reconfiguration to the same exponent. -/
theorem setblkDiscardsTheOverlapTails : Obligations.SetblkDiscardsTheOverlapTails := by
  intro s s' t t' len hf hlen heng hch h h'
  obtain ⟨k, hk⟩ := legalLength_iff.1 hlen
  have hi := isReconfiguration_setblk len
  have hf' : Unfaulted s' := by rwa [Unfaulted, heng]
  cases (exec_reconfiguration_completed hi hf (newExp_setblk.2 hk)).symm.trans h
  cases (exec_reconfiguration_completed hi hf' (newExp_setblk.2 hk)).symm.trans h'
  exact ⟨reconfigure_block_congr heng hch k, fun c => by simp⟩

end Sys2Proof.Machine
end

section
/-! `SETGAIN` and the gain map (R109, R110; O45, O46, O47). -/

namespace Sys2Proof.Machine

/-! ### The two outcomes of `SETGAIN` -/

section
variable {s : State} {p : F64}

theorem exec_setgain_of_isFinite (hf : Unfaulted s) (hp : isFinite p = true) :
    exec (.setgain p) s = .next ((s.setGain (gainOf p)).answer .ok []) := by
  have hok : isFinite (f64OfBits p) = true := hp
  rw [exec, execSetgain, whenUnfaulted_none hf, if_pos hok]
  rfl

theorem exec_setgain_of_not_isFinite (hf : Unfaulted s) (hp : isFinite p = false) :
    exec (.setgain p) s = .next (s.answer .cfgErr []) := by
  have hbad : ¬ isFinite (f64OfBits p) = true := Bool.eq_false_iff.1 hp
  rw [exec, execSetgain, whenUnfaulted_none hf, if_neg hbad]
  rfl

end

/-- Settles O45. -/
theorem setgainDividesFiniteInput : Obligations.SetgainDividesFiniteInput := by
  intro s p hf
  constructor
  · intro hp
    exact ⟨_, exec_setgain_of_isFinite hf hp, rfl, State.setGain_ch s (gainOf p), rfl, rfl, rfl⟩
  · intro hp
    exact ⟨_, exec_setgain_of_not_isFinite hf hp, rfl, answered_answer s .cfgErr []⟩

/-! ### Size and sign of a quotient -/

section
variable {a b : F64} (ha : isFinite a = true) (hb : isFinite b = true) (h0 : isZero b = false)
include ha hb h0

/-- The sign of a quotient is the exclusive or of the signs, when it underflows to a zero too. -/
theorem fSign_fdiv : fSign (fdiv a b) = (fSign a != fSign b) := by
  rw [fdiv_of_isFinite ha hb h0, fSign_packF64 (roundMag_lt _ _)]

/-- A quotient by at least 1 is not rounded past the dividend: the dividend is itself a candidate, between which and 0
the exact quotient lies. -/
theorem abs_toRat_fdiv_le (h1 : 1 ≤ toRat b) : |toRat (fdiv a b)| ≤ |toRat a| := by
  have hpos : 0 < toRat b := one_pos.trans_le h1
  have hsmall : |toRat a / toRat b| < overflowBound := by
    rw [abs_div, abs_of_pos hpos]
    exact (div_le_self (abs_nonneg _) h1).trans_lt (abs_toRat_lt_overflowBound ha)
  have hnearest : |toRat (fdiv a b) - toRat a / toRat b| ≤ |toRat a - toRat a / toRat b| :=
    (((fdivRoundsOnceToNearestEven a b ha hb h0).1 hsmall).2 a ha).1
  have hbetween : |toRat a - toRat a / toRat b| = |toRat a| - |toRat a / toRat b| := by
    have hfactor : 0 ≤ 1 - (toRat b)⁻¹ := sub_nonneg.2 (inv_le_one_of_one_le₀ h1)
    calc |toRat a - toRat a / toRat b| = |toRat a * (1 - (toRat b)⁻¹)| := by rw [mul_one_sub, div_eq_mul_inv]
      _ = |toRat a| - |toRat a / toRat b| := by
        rw [abs_mul, abs_of_nonneg hfactor, mul_one_sub, abs_div, abs_of_pos hpos, div_eq_mul_inv]
  calc |toRat (fdiv a b)| ≤ |toRat a / toRat b| + |toRat (fdiv a b) - toRat a / toRat b| := by
        simpa using abs_add_le (toRat a / toRat b) (toRat (fdiv a b) - toRat a / toRat b)
    _ ≤ |toRat a| := by linarith

end

theorem one_le_toRat_gainDiv : 1 ≤ toRat Config.gainDiv := by
  have hsign : fSign Config.gainDiv = false := by decide
  have hnonneg : 0 ≤ toRat Config.gainDiv := by
    rw [toRat_eq_signed, hsign]
    exact div_nonneg (Nat.cast_nonneg _) two_pow_ulpExp_pos.le
  rw [← abs_of_nonneg hnonneg]
  exact one_le_abs_toRat_gainDiv

/-- Settles O47: `1000000.0` is positive and at least 1. -/
theorem gainMapKeepsFiniteInputFinite : Obligations.GainMapKeepsFiniteInputFinite := by
  intro p hp
  have hdiv : isFinite Config.gainDiv = true := by decide
  have hne : isZero Config.gainDiv = false := by decide
  have hsign : fSign Config.gainDiv = false := by decide
  refine ⟨isFinite_gainOf hp, ?_, abs_toRat_fdiv_le hp hdiv hne one_le_toRat_gainDiv⟩
  calc fSign (gainOf p) = (fSign p != fSign Config.gainDiv) := fSign_fdiv hp hdiv hne
    _ = fSign p := by rw [hsign, Bool.bne_false]

/-- Settles O46: closed patterns, evaluated; a multiplication rounds `10.0` and `100.0` otherwise. -/
theorem gainMapHasTheListedValues : Obligations.GainMapHasTheListedValues := by
  unfold Obligations.GainMapHasTheListedValues
  decide +kernel

end Sys2Proof.Machine
end

section
/-! Which register read-outs complete (O49). -/

namespace Sys2Proof.Machine

/-- The legal read-outs are those `csrSelect` finds a register for (R55 d). -/
theorem csrLegal_eq_true_iff {c : Chan} {csr : Imm} : csrLegal csr c = true ↔ ∃ r, csrSelect c csr = some r := by
  rw [← csrSelect_isSome, Option.isSome_iff_exists]

theorem csrLegal_eq_false_iff {c : Chan} {csr : Imm} : csrLegal csr c = false ↔ csrSelect c csr = none := by
  rw [← csrSelect_isSome, Option.isSome_eq_false_iff, Option.isNone_iff_eq_none]

/-- `RDCSR` of a number and channel that select no register is rejected as illegal, in every state (R54 step 2). -/
theorem exec_rdcsr_of_csrSelect_none {c : Chan} {csr : Imm} (s : State) (hnone : csrSelect c csr = none) :
    exec (.rdcsr c csr) s = reject s .illegal := by
  simp only [exec, execRdcsr, hnone]

/-- Settles O49: `csrSelect` finds a register exactly for the legal read-outs. -/
theorem rdcsrCompletesExactlyWhenLegal : Obligations.RdcsrCompletesExactlyWhenLegal := by
  intro s c csr
  constructor
  · intro hlegal
    obtain ⟨r, hr⟩ := csrLegal_eq_true_iff.1 hlegal
    exact ⟨csrValue s c r, reads_csrValue s hr⟩
  · intro hillegal
    rw [exec_rdcsr_of_csrSelect_none s (csrLegal_eq_false_iff.1 hillegal)]
    exact rejected_reject s .illegal

end Sys2Proof.Machine
end

section
/-! The faulted block (O51, O52). -/

namespace Sys2Proof.Machine

/-- Every command but `RDCSR` stands under the refusal of R54 step 3. -/
theorem exec_faulted {s : State} {f : Cause × Chan} {i : Instr} (hf : s.eng.fault = some f)
    (hi : ∀ c csr, i ≠ .rdcsr c csr) : exec i s = .next (s.answer .fault []) := by
  cases i with
  | push _ _ _ | proc _ | drain _ _ => rw [exec_addressed rfl, whenUnfaulted_some hf]
  | setblk len => exact exec_reconfiguration_faulted (isReconfiguration_setblk len) hf
  | setexp x => exact exec_reconfiguration_faulted (isReconfiguration_setexp x) hf
  | setgain _ => exact whenUnfaulted_some hf _
  | reset => exact exec_reconfiguration_faulted (.inr (.inr rfl)) hf
  | rdcsr c csr => exact absurd rfl (hi c csr)

/-- Settles O51: the refusal only appends its answer. -/
theorem faultedBlockRefusesEveryOtherCommand : Obligations.FaultedBlockRefusesEveryOtherCommand := by
  intro s f i hf hi
  exact ⟨s.answer .fault [], exec_faulted hf hi, rfl, answered_answer s .fault []⟩

/-- Settles O52, by the inversion of a step and of the command it executes. -/
theorem faultedBlockIsFrozenUntilReset : Obligations.FaultedBlockIsFrozenUntilReset := by
  intro s t f hf hin hstep
  exact step_block_of_faulted hf hin hstep

end Sys2Proof.Machine
end

section
/-! The soft reset (R102, R137; O42) and hardware reset (R135, R136; O1, O2). -/

namespace Sys2Proof.Machine

/-! ### `RESET` -/

/-- The present block length is a legal operand of `SETBLK`: it sets the exponent that stands. -/
theorem newExp_setblk_blockLength (s : State) :
    newExp s.eng (.setblk (BitVec.ofNat 20 s.blockLength)) = some s.eng.blkExp :=
  newExp_setblk.2 (toNat_ofNat_length s.eng.blkExp)

/-- Settles O42: `RESET` and `SETBLK` of the present block length set the same exponent, the one that stands. -/
theorem softResetZeroesTheOverlapBuffersOnly : Obligations.SoftResetZeroesTheOverlapBuffersOnly := by
  intro s hf
  have hreset : IsReconfiguration .reset := .inr (.inr rfl)
  have hkeeps : newExp s.eng .reset = some s.eng.blkExp := rfl
  refine ⟨exists_reconfigured hreset hf hkeeps, ?_⟩
  calc exec .reset s = .next ((s.reconfigure s.eng.blkExp).answer .ok []) :=
        exec_reconfiguration_completed hreset hf hkeeps
    _ = exec (.setblk (BitVec.ofNat 20 s.blockLength)) s :=
        (exec_reconfiguration_completed (isReconfiguration_setblk _) hf (newExp_setblk_blockLength s)).symm

/-! ### Hardware reset -/

/-- What the channel registers read on a channel as hardware reset leaves it (R27, R136). -/
theorem reads_channel_init {s : State} {c : Chan} (hch : s.ch c = ChannelState.init s.blockLength) :
    Reads s c 0x10 0 ∧ Reads s c 0x11 0 ∧ Reads s c 0x12 0 ∧ Reads s c 0x13 0 ∧
      Reads s c 0x14 (BitVec.ofNat 64 s.blockLength) := by
  have hL : s.blockLength < 2 ^ 64 := (blockLength_le s).trans_lt (by decide)
  obtain ⟨-, -, -, -, -, -, -, -, -, htable⟩ := rdcsrReadsTheRegisterTable s
  obtain ⟨hlat, hinA, hinB, hout, hovl⟩ := htable c
  simp only [hch, ChannelState.init_lat, ChannelState.init_inA, ChannelState.init_inB, ChannelState.init_outQ,
    ChannelState.init_ovl, List.length_nil, length_zeros] at hlat hinA hinB hout hovl
  have h0 : 0 < 2 ^ 64 := by decide
  exact ⟨hlat h0, hinA h0, hinB h0, hout h0, hovl hL⟩

/-- Settles O1: the register table of R27 read at the Init values; the gain is the listed quotient of R110. -/
theorem hardwareResetLeavesTheInitValues : Obligations.HardwareResetLeavesTheInitValues := by
  intro p s L
  have hch (c : Chan) : s.ch c = ChannelState.init L := State.init_ch p c
  obtain ⟨-, hgain, -⟩ := gainMapHasTheListedValues
  obtain ⟨hblklen, hgainRead, hfault, hnchan, hmaxblk, hinNone, hinSome, houtNone, houtSome, -⟩ :=
    rdcsrReadsTheRegisterTable s
  refine ⟨rfl, rfl, hgain.symm, rfl, fun c => ?_, lengthLegal s, fun c => ?_, hblklen, hgainRead, hfault, hnchan,
    hmaxblk, hinNone, hinSome, houtNone, houtSome, fun c => reads_channel_init (hch c)⟩
  · rw [hch]
    exact ⟨rfl, rfl, rfl, rfl, rfl⟩
  · have hinit := channelInv_init p L
    rw [← hch c] at hinit
    exact ⟨hinit.queues, hinit.overlap⟩

/-- Settles O2: the step that takes the reset input is `hardwareReset`, which asks nothing of the block. -/
theorem resetInputBringsAnyStateToInit : Obligations.ResetInputBringsAnyStateToInit := by
  intro s rest hin
  exact ⟨_, step_reset hin, rfl, rfl, rfl, rfl⟩

end Sys2Proof.Machine
end
